-- ==== Sys2Proof/Word.lean ====
section
/-! DEFINITION. The pipeline's word types. All quantities are unsigned and arithmetic on counts, offsets
and cursors is exact over the natural numbers (spec 00_scope R12, R13; 42_decoder R166), so only what the
spec types with a width is a bit vector. -/

namespace Sys2Proof

/-- A byte of any of the three spaces (20_memory R50). -/
abbrev Byte := BitVec 8

/-- A header field, "unsigned 16-bit" (10_state R21). -/
abbrev Half := BitVec 16

/-- `length`, `dst_size`, `dst_stride_bits` and their latches, "unsigned 32 bits" (10_state R21, R29, R34). -/
abbrev Word := BitVec 32

/-- The information word of an error event (60_exceptions R200). -/
abbrev Info := BitVec 64

end Sys2Proof
end

