-- ==== Sys2Proof/Config.lean ====
section
/-! DEFINITION. The parameters of the pipeline (spec 00_scope R8): the fixed ones as numbers, the open
ones as a `Config` the machine's state carries (assumption log 1), and the free values, constants
without a body (assumption log 7, 8, 9). -/

namespace Sys2Proof

/-- `N`, the number of Slots (00_scope R8, R9). -/
abbrev numSlots : Nat := 2

/-- `MAX_CHUNK` (00_scope R8): the greatest chunk length; a shorter chunk ends a message. -/
@[simp] abbrev maxChunk : Nat := 512

/-- `HDR_LEN` (30_encoding R86): one command byte and four fields of two bytes. -/
@[simp] abbrev hdrLen : Nat := 9

/-- `BPP` (00_scope R8): bits per pixel. -/
@[simp] abbrev bitsPerPixel : Nat := 16

/-- `PIXEL_BYTES` (00_scope R8). -/
@[simp] abbrev pixelBytes : Nat := 2

/-- `HDR_ENDIAN` (00_scope R8, 30_encoding R88): the wire order of the two bytes of a header field. -/
inductive Endian where
  | le
  | be
  deriving DecidableEq, Repr

/-- `CAPACITY` (00_scope R8): `503 <= CAPACITY <= 2^32 - 1`. A capacity outside the bound cannot be
written down (93_implementation_defined U11: `refuse`). -/
structure Capacity where
  bytes : Nat
  atLeast : 503 ≤ bytes
  atMost : bytes ≤ 4294967295
  deriving DecidableEq, Repr

/-- The open parameters, "an argument the model takes" (00_scope R8). Every state carries one and no step
changes it, so a claim about every state is a claim about every choice of the parameters. -/
structure Config where
  capacity : Capacity
  hdrEndian : Endian
  rleGuard : Bool
  deriving DecidableEq, Repr

/-- DESIGN CHOICE (assumption log 1): the parameters `State.reset` has, those of the spec's test vectors
(95_test_vectors section 0). No claim needs them. -/
def Config.ofVectors : Config where
  capacity := { bytes := 1024, atLeast := by decide, atMost := by decide }
  hdrEndian := .le
  rleGuard := false

/-- FREE VALUE (assumption log 9): payload byte `a` of Slot `i` before anything has written it
(10_state R40 "any byte"; 93 U6). The same byte at every read until it is written (10_state R24). -/
opaque Config.powerUpByte : Nat → Nat → Byte

/-- FREE VALUE (assumption log 8): the byte that read number `d` of the run gives at an index at or above
`CAPACITY` (42_decoder R170; 93 U12). -/
opaque Config.freeByte : Nat → Byte

/-- FREE VALUE (assumption log 7): which of the values before and after the producer's writes read number
`d` of the run gives on a Slot race (20_memory R65). -/
opaque Config.racePick : Nat → Nat

end Sys2Proof
end

