-- ==== Sys2Proof/Syntax.lean ====
section
/-! DEFINITION. The operations of the pipeline: one constructor of `Instr` per row of
spec/opcode_table.json, with the operands the row's encoding carries. -/

namespace Sys2Proof

/-- The message kind a Slot holds (10_state R21; 92 D23): two-valued, never a third. -/
inductive Kind where
  | rawBlt
  | rleBlt
  deriving DecidableEq, Repr

/-- The three encoding levels of 30_encoding: what the bits of an operation are read as. -/
inductive Space where
  /-- a delivered chunk (30_encoding R80, R81) -/
  | chunk
  /-- the kind code a Slot's message was started with (30_encoding R84) -/
  | slotKind
  /-- a segment header byte (30_encoding R94) -/
  | segment
  deriving DecidableEq, Repr

inductive Instr where
  /-- `START.RAW_BLT` (40_reassembler R112): header fields and payload bytes 9 .. len-1. -/
  | startRawBlt (x y width height : Half) (payload : List Byte)
  /-- `START.RLE_BLT` (40_reassembler R113). -/
  | startRleBlt (x y width height : Half) (payload : List Byte)
  /-- `START.RUNT`, byte 0 = 0x81 (40_reassembler R115): the bytes after byte 0. -/
  | startRuntRaw (rest : List Byte)
  /-- `START.RUNT`, byte 0 = 0x82 (40_reassembler R115). -/
  | startRuntRle (rest : List Byte)
  /-- `START.UNKNOWN` (40_reassembler R114): the `KIND` bits and the bytes after byte 0. -/
  | startUnknown (kind : BitVec 7) (rest : List Byte)
  /-- `CONT` (40_reassembler R116): all bytes of the chunk are payload; the chunk may be empty. -/
  | cont (bytes : List Byte)
  /-- `COMMIT` (40_reassembler R119). -/
  | commit
  /-- `SIGNAL` (40_reassembler R120). -/
  | signal
  /-- `INVOKE` (41_ring R146). -/
  | invoke
  /-- `CHECK` (42_decoder R161). -/
  | check
  /-- `TAKE` (42_decoder R162 to R164, R167). -/
  | take
  /-- `RAW_BLT` (42_decoder R168). -/
  | rawBlt
  /-- `RLE_BLT` (42_decoder R169). -/
  | rleBlt
  /-- `SEG.LITERAL` (42_decoder R171): header bit 6 and `COUNT_M1`. -/
  | segLiteral (bit6 : Bool) (countM1 : BitVec 6)
  /-- `SEG.REPEAT` (42_decoder R172): header bit 6 and `COUNT_M1`. -/
  | segRepeat (bit6 : Bool) (countM1 : BitVec 6)
  /-- `RELEASE` (41_ring R149). -/
  | release
  /-- `RESET` (70_reset_and_hazards R230). -/
  | reset
  deriving DecidableEq, Repr

end Sys2Proof
end

