-- ==== Sys2Proof/WellFormed.lean ====
section
/-! DEFINITION. Which instruction terms stand for words of the spec: the length and byte conditions of the
opcode table's rows (30_encoding R80 to R89, 40_reassembler R112 to R116). -/

namespace Sys2Proof

/-- A START payload fits its chunk: `len - 9 <= 503` (30_encoding R86). -/
def startPayloadFits (payload : List Byte) : Bool := hdrLen + payload.length ≤ maxChunk

/-- A runt chunk has 1 to 8 bytes (30_encoding R86), so at most 7 after byte 0. -/
def runtRestFits (rest : List Byte) : Bool := 1 + rest.length < hdrLen

/-- `KIND` is neither of the two known kinds (30_encoding R84). -/
def kindIsUnknown (kind : BitVec 7) : Bool := kind != 1#7 && kind != 2#7

/-- A CONT chunk is empty or has bit 7 of its first byte clear (30_encoding R81). -/
def firstBitClear : List Byte → Bool
  | [] => true
  | b :: _ => !b.msb

/-- The term stands for a word of its row. -/
def Instr.wf : Instr → Bool
  | .startRawBlt _ _ _ _ payload => startPayloadFits payload
  | .startRleBlt _ _ _ _ payload => startPayloadFits payload
  | .startRuntRaw rest => runtRestFits rest
  | .startRuntRle rest => runtRestFits rest
  | .startUnknown kind rest => kindIsUnknown kind && decide (1 + rest.length ≤ maxChunk)
  | .cont bytes => firstBitClear bytes && decide (bytes.length ≤ maxChunk)
  | .commit => true
  | .signal => true
  | .invoke => true
  | .check => true
  | .take => true
  | .rawBlt => true
  | .rleBlt => true
  | .segLiteral _ _ => true
  | .segRepeat _ _ => true
  | .release => true
  | .reset => true

end Sys2Proof
end

