-- ==== Sys2Proof/Decode.lean ====
section
/-! DEFINITION. The decoder, total on any bytes, in the three encoding spaces of 30_encoding, and after it
the encoder, written from the same tables. -/

namespace Sys2Proof

/-! ## Bit fields and codes (30_encoding R83, R84, R93, R94; 92 D2, D17) -/

/-- `CMD_START_BIT`: bit 7 of a command byte. -/
def cmdStartBit : Byte := 0x80#8

/-- `CMD_KIND_MASK`: bits 6:0 of a command byte. -/
def cmdKindMask : Byte := 0x7F#8

/-- `KIND_RAW_BLT`. -/
def kindRawBlt : BitVec 7 := 0x01#7

/-- `KIND_RLE_BLT`. -/
def kindRleBlt : BitVec 7 := 0x02#7

/-- `SIZE_MASK` (30_encoding R93). -/
def sizeMask : Byte := 0x3F#8

/-- `SEG_REPEAT_BIT`: bit 7 of a segment header. -/
def segRepeatBit : Byte := 0x80#8

/-- The bit of a segment header that no rule reads (30_encoding R94). -/
def segIgnoredBit : Byte := 0x40#8

/-- `bytes[0] & CMD_START_BIT != 0` (30_encoding R81). -/
def isCommand (c : Byte) : Bool := c &&& cmdStartBit != 0#8

/-- `bytes[0] & CMD_KIND_MASK` as the 7-bit field `KIND` (30_encoding R83). -/
def kindField (c : Byte) : BitVec 7 := (c &&& cmdKindMask).setWidth 7

/-- The command byte with that `KIND` (30_encoding R83). -/
def commandByte (kind : BitVec 7) : Byte := cmdStartBit ||| kind.setWidth 8

/-- The kind code of a kind (30_encoding R84). -/
def kindCode : Kind → BitVec 7
  | .rawBlt => kindRawBlt
  | .rleBlt => kindRleBlt

/-- The two known kind codes (30_encoding R84). -/
def decodeKind (kind : BitVec 7) : Option Kind :=
  if kind = kindRawBlt then some .rawBlt
  else if kind = kindRleBlt then some .rleBlt
  else none

/-- `u16(b0, b1)` (30_encoding R88). -/
def u16 (e : Endian) (b0 b1 : Byte) : Half :=
  match e with
  | .le => BitVec.ofNat 16 (b0.toNat + 256 * b1.toNat)
  | .be => BitVec.ofNat 16 (256 * b0.toNat + b1.toNat)

/-- The two wire bytes of a header field, lower index first (30_encoding R88). -/
def halfBytes (e : Endian) (v : Half) : List Byte :=
  match e with
  | .le => [BitVec.ofNat 8 (v.toNat % 256), BitVec.ofNat 8 (v.toNat / 256)]
  | .be => [BitVec.ofNat 8 (v.toNat / 256), BitVec.ofNat 8 (v.toNat % 256)]

/-- `pixel_count = COUNT_M1 + 1` (30_encoding R94). -/
def pixelCount (countM1 : BitVec 6) : Nat := countM1.toNat + 1

/-- `COUNT_M1` of a segment header: `h & SIZE_MASK` (30_encoding R94). -/
def segCountM1 (h : Byte) : BitVec 6 := (h &&& sizeMask).setWidth 6

/-! ## The decoder -/

/-- Why bytes are no operation of a space. -/
inductive DecodeError where
  /-- a chunk longer than `MAX_CHUNK` cannot be delivered (10_state R32; 93 U9) -/
  | chunkTooLong
  /-- a kind code that no Slot holds (30_encoding R84, 40_reassembler R114) -/
  | noSuchKind
  /-- a kind code or a segment header is exactly one byte -/
  | notOneByte
  deriving DecidableEq, Repr

/-- A chunk with a known kind: with all of its header it is a START chunk, else a runt (40_reassembler R111,
header layout 30_encoding R85). `rest` is the chunk after byte 0. -/
def decodeStart (e : Endian) (k : Kind) (rest : List Byte) : Instr :=
  match rest with
  | x0 :: x1 :: y0 :: y1 :: w0 :: w1 :: h0 :: h1 :: payload =>
    match k with
    | .rawBlt => .startRawBlt (u16 e x0 x1) (u16 e y0 y1) (u16 e w0 w1) (u16 e h0 h1) payload
    | .rleBlt => .startRleBlt (u16 e x0 x1) (u16 e y0 y1) (u16 e w0 w1) (u16 e h0 h1) payload
  | _ =>
    match k with
    | .rawBlt => .startRuntRaw rest
    | .rleBlt => .startRuntRle rest

/-- The producer's dispatch on a chunk (40_reassembler R111; 30_encoding R81): the kind is tested before the
length, and the empty chunk is a CONT chunk. -/
def decodeChunkForm (e : Endian) (bytes : List Byte) : Instr :=
  match bytes with
  | [] => .cont []
  | c :: rest =>
    if isCommand c then
      match decodeKind (kindField c) with
      | none => .startUnknown (kindField c) rest
      | some k => decodeStart e k rest
    else .cont (c :: rest)

/-- A chunk of at most `MAX_CHUNK` bytes (30_encoding R80). -/
def decodeChunk (e : Endian) (bytes : List Byte) : Except DecodeError Instr :=
  if maxChunk < bytes.length then .error .chunkTooLong else .ok (decodeChunkForm e bytes)

/-- A segment header byte (30_encoding R94): all 256 values decode. -/
def decodeSegment (h : Byte) : Instr :=
  if h &&& segRepeatBit != 0#8 then .segRepeat (h &&& segIgnoredBit != 0#8) (segCountM1 h)
  else .segLiteral (h &&& segIgnoredBit != 0#8) (segCountM1 h)

/-- The consumer operation of a kind code (42_decoder R164). -/
def decodeSlotKind (c : Byte) : Except DecodeError Instr :=
  if isCommand c then .error .noSuchKind
  else
    match decodeKind (kindField c) with
    | some .rawBlt => .ok .rawBlt
    | some .rleBlt => .ok .rleBlt
    | none => .error .noSuchKind

/-- The decoder of each space, total on any bytes. -/
def decode (e : Endian) (sp : Space) (bytes : List Byte) : Except DecodeError Instr :=
  match sp, bytes with
  | .chunk, bytes => decodeChunk e bytes
  | .slotKind, [c] => decodeSlotKind c
  | .slotKind, _ => .error .notOneByte
  | .segment, [h] => .ok (decodeSegment h)
  | .segment, _ => .error .notOneByte

/-! ## The encoder -/

/-- The bytes of a chunk with a full header (30_encoding R85). -/
def encodeStart (e : Endian) (kind : BitVec 7) (x y width height : Half) (payload : List Byte) : List Byte :=
  commandByte kind :: (halfBytes e x ++ halfBytes e y ++ halfBytes e width ++ halfBytes e height ++ payload)

/-- A segment header byte (30_encoding R94). -/
def encodeSegment (rep bit6 : Bool) (countM1 : BitVec 6) : Byte :=
  (if rep then segRepeatBit else 0#8) ||| (if bit6 then segIgnoredBit else 0#8) ||| countM1.setWidth 8

/-- The space and the bytes of an operation; `none` for the rows the opcode table calls internal. -/
def encode (e : Endian) : Instr → Option (Space × List Byte)
  | .startRawBlt x y width height payload => some (.chunk, encodeStart e kindRawBlt x y width height payload)
  | .startRleBlt x y width height payload => some (.chunk, encodeStart e kindRleBlt x y width height payload)
  | .startRuntRaw rest => some (.chunk, commandByte kindRawBlt :: rest)
  | .startRuntRle rest => some (.chunk, commandByte kindRleBlt :: rest)
  | .startUnknown kind rest => some (.chunk, commandByte kind :: rest)
  | .cont bytes => some (.chunk, bytes)
  | .commit => none
  | .signal => none
  | .invoke => none
  | .check => none
  | .take => none
  | .rawBlt => some (.slotKind, [kindRawBlt.setWidth 8])
  | .rleBlt => some (.slotKind, [kindRleBlt.setWidth 8])
  | .segLiteral bit6 countM1 => some (.segment, [encodeSegment false bit6 countM1])
  | .segRepeat bit6 countM1 => some (.segment, [encodeSegment true bit6 countM1])
  | .release => none
  | .reset => none

/-! ## The host's words -/

/-- Byte `k` of a number whose bits are counted from the first byte on. -/
def wordByte (w k : Nat) : Byte := BitVec.ofNat 8 (w >>> (8 * k))

/-- The chunk of an opcode-table word: its bytes, then zero bytes up to the length of a full header
(assumption log 4). -/
def tableChunk (nbits w : Nat) : List Byte := (List.range (max (nbits / 8) hdrLen)).map (wordByte w)

/-- The word is a Slot kind code, the table's rows with mask 0x7F and no chunk byte (assumption log 4). -/
def isTableKindCode (nbits w : Nat) : Bool := decide (nbits ≤ 8) && (decide (w = 1) || decide (w = 2))

/-- What the decoder reads from an opcode-table word. One word can match rows of several spaces; the row with
the most fixed bits is taken, a chunk row before a segment row (DESIGN CHOICE, assumption log 4). -/
def decodeTableWord (nbits w : Nat) : Option Instr :=
  if isTableKindCode nbits w then
    match decode .le .slotKind [wordByte w 0] with
    | .ok i => some i
    | .error _ => none
  else
    match decode .le .chunk (tableChunk nbits w) with
    | .ok i => some i
    | .error _ => none

end Sys2Proof
end

