-- ==== Sys2Proof/Machine/State.lean ====
section
/-! DEFINITION. The state of the pipeline (spec 10_state R20), the reasons a step can stop, and the state
after reset (10_state R40). -/

namespace Sys2Proof.Machine

/-- A sparse byte memory: addresses strictly rising (`Memory.wf`, in Ops). An unlisted address has no value:
nothing has written it, so no listed entry can equal what it reads as. -/
abbrev Memory := List Host.Cell

/-- A Slot index, and the width of `head` and `tail` (10_state R22, R23). -/
abbrev SlotIdx := Fin numSlots

/-- A Slot: its descriptor registers and its payload memory (10_state R21, R24). -/
structure Slot where
  kind : Kind
  x : Half
  y : Half
  width : Half
  height : Half
  length : Word
  payload : Memory
  deriving DecidableEq, Repr

/-- `c_phase` (10_state R30). -/
inductive Phase where
  | idle
  | check
  | loop
  | raw
  | rle
  | release
  deriving DecidableEq, Repr

/-- The five error events (60_exceptions R200). -/
inductive ErrorEvent where
  | oversize
  | unknownKind
  | dstBounds
  | noDst
  | runtStart
  deriving DecidableEq, Repr

/-- One output transaction of the history (10_state R42): a `DST_WR` write (R35) or an `ERR_OUT` event (R36). -/
inductive Transaction where
  | dstWr (addr : Nat) (byte : Byte)
  | errOut (event : ErrorEvent) (info : Info)
  deriving DecidableEq, Repr

/-- An input of the environment (00_scope R10: `ENV`), in the order it lands (assumption log 3). -/
inductive Input where
  /-- `CHUNK_IN` delivers a chunk (10_state R32): one `P` step -/
  | chunk (bytes : List Byte)
  /-- the surface owner sets `dst_attached`, `dst_size`, `dst_stride_bits` (10_state R34) -/
  | surface (attached : Bool) (size strideBits : Word)
  /-- the `reset` input (70_reset_and_hazards R230) -/
  | reset
  /-- no input yet: the enabled internal operation of `S` or `C` takes a turn and moves at most `burst` bytes
  of a copy or segment, all of them when `burst` is none (42_decoder R177; assumption log 5) -/
  | turn (burst : Option Nat)
  deriving DecidableEq, Repr

/-- The segment being expanded: the locals of 42_decoder R169 to R172 (assumption log 6). -/
structure Segment where
  /-- the header byte `h` -/
  header : Byte
  /-- how many of the `2 * n` decoded bytes are written -/
  moved : Nat
  /-- `p0` and `p1` of a repeat segment, once read -/
  pixel : Option (Byte × Byte)
  deriving DecidableEq, Repr

/-- A write of the producer to the Slot the consumer holds (20_memory R65): where, how many bytes, and the
payload memory before it (assumption log 7). -/
structure Race where
  base : Nat
  count : Nat
  before : Memory
  deriving DecidableEq, Repr

/-- What the spec calls a fault of a run. -/
inductive Fault where
  /-- `DstOutOfSurface` (20_memory R68; 93 U1): a `DST_WR` write at that address, at or above `c_size`. Raised by
  the RLE path with `RLE_GUARD` false. It is RECORDED in `State.faults` and the step goes on, as the pipeline does
  (95_test_vectors L10); no step ends in it. Unsafe for a claim that leaves `State.faults` out of account, since what
  the write hits is not known (assumption log 11). -/
  | dstOutOfSurface (addr : Nat)
  deriving DecidableEq, Repr

/-- Why the model gives a step no meaning. -/
inductive Refusal where
  /-- no meaning written for that row. Safe. -/
  | notModelled (mnemonic : String)
  /-- `step` on a delivered chunk longer than `MAX_CHUNK`, which `CHUNK_IN` cannot carry (10_state R32; 93 U9).
  Safe (assumption log 16). -/
  | chunkTooLong
  /-- `step` on a surface change while `running` (70 R241; 93 U8: the environment has no such move). Unsafe, as the
  spec says of U8 (assumption log 15). -/
  | surfaceMovedWhileRunning
  /-- `exec` of an internal operation that is not the enabled one (41_ring R146, 42_decoder R160). `step` never
  does that. Safe (assumption log 17). -/
  | notEnabled
  deriving DecidableEq, Repr

structure State where
  /-- the parameters (00_scope R8); no step changes them -/
  cfg : Config
  /-- next Slot the producer writes (10_state R22) -/
  head : SlotIdx
  /-- next Slot the consumer reads (10_state R23) -/
  tail : SlotIdx
  slot0 : Slot
  slot1 : Slot
  /-- continuation chunks are discarded (10_state R26) -/
  drop : Bool
  /-- the coalesced wake-up request (10_state R27) -/
  pending : Bool
  /-- an invocation is in progress (10_state R28) -/
  running : Bool
  cPhase : Phase
  cAtt : Bool
  cSize : Word
  cStride : Word
  cKind : Kind
  cX : Half
  cY : Half
  cLen : Word
  /-- destination byte offset of the Slot being rendered (10_state R31) -/
  cBase : Nat
  /-- payload read cursor (10_state R31) -/
  rd : Nat
  /-- destination cursor of the RLE path (10_state R31) -/
  wr : Nat
  dstAttached : Bool
  dstSize : Word
  dstStrideBits : Word
  /-- the destination surface (20_memory R53) -/
  dst : Memory
  /-- the event history, oldest first (10_state R42) -/
  trace : List Transaction
  /-- inputs yet to land, next first -/
  inputs : List Input
  /-- the model's own: the segment being expanded -/
  cSeg : Option Segment
  /-- the model's own: the producer's writes to the held Slot, oldest first -/
  races : List Race
  /-- the model's own: recorded faults, oldest first -/
  faults : List Fault
  /-- the model's own: how many bytes the consumer may move in this step -/
  burst : Option Nat
  /-- the model's own: payload reads so far, the argument of the free values -/
  draws : Nat
  deriving DecidableEq, Repr

/-- A Slot after reset, over the payload memory it has (10_state R40, R230). -/
def Slot.cleared (payload : Memory) : Slot where
  kind := .rawBlt
  x := 0#16
  y := 0#16
  width := 0#16
  height := 0#16
  length := 0#32
  payload := payload

/-- The state after power-up and reset with those parameters: the table of 10_state R40, payload memories never
written, no surface attached and no input yet (assumption log 4, 12, 13, 26). -/
def State.powerUp (cfg : Config) : State where
  cfg := cfg
  head := 0
  tail := 0
  slot0 := Slot.cleared []
  slot1 := Slot.cleared []
  drop := false
  pending := false
  running := false
  cPhase := .idle
  cAtt := false
  cSize := 0#32
  cStride := 0#32
  cKind := .rawBlt
  cX := 0#16
  cY := 0#16
  cLen := 0#32
  cBase := 0
  rd := 0
  wr := 0
  dstAttached := false
  dstSize := 0#32
  dstStrideBits := 0#32
  dst := []
  trace := []
  inputs := []
  cSeg := none
  races := []
  faults := []
  burst := none
  draws := 0

/-- The machine right after reset (assumption log 1 names its parameters). -/
def State.reset : State := State.powerUp Config.ofVectors

end Sys2Proof.Machine
end

