-- ==== Sys2Proof/Machine/Ops.lean ====
section
/-! DEFINITION. Named operations over memory, the Slots and the output ports, each written once and shared by the
meanings. -/

namespace Sys2Proof.Machine

/-! ## Byte memories -/

/-- Addresses rise strictly: the one canonical form. -/
def Memory.wf : Memory → Bool
  | [] => true
  | c :: m => m.all (fun d => decide (c.1 < d.1)) && Memory.wf m

/-- Every listed address is below a bound. -/
def Memory.within (bound : Nat) (m : Memory) : Bool := m.all (fun c => decide (c.1 < bound))

/-- `MemRead(space, a, 1)` (00_scope R13); none where nothing is known to have been written. -/
def Memory.read : Memory → Nat → Option Byte
  | [], _ => none
  | (k, v) :: m, a => if k = a then some v else Memory.read m a

/-- `MemWrite(space, a, 1, b)` (00_scope R13). -/
def Memory.write : Memory → Nat → Byte → Memory
  | [], a, b => [(a, b)]
  | (k, v) :: m, a, b =>
    if a < k then (a, b) :: (k, v) :: m
    else if a = k then (a, b) :: m
    else (k, v) :: Memory.write m a b

/-- The byte at `a` is no longer known. -/
def Memory.forget : Memory → Nat → Memory
  | [], _ => []
  | (k, v) :: m, a => if k = a then m else (k, v) :: Memory.forget m a

/-- `MemWrite(space, a, n, bytes)`: lowest address first (00_scope R13). -/
def Memory.writeBytes : Memory → Nat → List Byte → Memory
  | m, _, [] => m
  | m, a, b :: bs => Memory.writeBytes (Memory.write m a b) (a + 1) bs

/-- What the surface of `size` bytes holds after writes at `a`, `a + 1`, …: an address inside is stored
(20_memory R53); an address outside is given no value (20_memory R68; assumption log 11). -/
def Memory.surfaceWrites (size : Nat) : Memory → Nat → List Byte → Memory
  | m, _, [] => m
  | m, a, b :: bs =>
    Memory.surfaceWrites size (if a < size then Memory.write m a b else Memory.forget m a) (a + 1) bs

/-! ## Slots -/

/-- `slot[i]`. -/
def State.slot (s : State) (i : SlotIdx) : Slot := if i = 0 then s.slot0 else s.slot1

/-- `slot[i] <- v`. -/
def State.setSlot (s : State) (i : SlotIdx) (v : Slot) : State :=
  { s with
    slot0 := if i = 0 then v else s.slot0
    slot1 := if i = 0 then s.slot1 else v }

/-- `(c + 1) mod N` (10_state R22, R23). -/
def nextIdx (i : SlotIdx) : SlotIdx := Fin.ofNat numSlots (i.val + 1)

/-- "`C` holds Slot `tail`" (10_state R30). -/
def State.holds (s : State) : Bool :=
  match s.cPhase with
  | .raw | .rle | .release => true
  | .idle | .check | .loop => false

/-- The producer writes payload bytes of `slot[head]` from index `base` on (20_memory R52). Where the consumer holds
that Slot it is a Slot race (20_memory R65), and what the bytes were before is kept for the consumer's reads. -/
def State.storePayload (s : State) (base : Nat) (bytes : List Byte) : State :=
  { s.setSlot s.head
      { s.slot s.head with payload := Memory.writeBytes (s.slot s.head).payload base bytes } with
    races :=
      if s.holds && s.tail == s.head then
        s.races ++ [{ base := base, count := bytes.length, before := (s.slot s.head).payload }]
      else s.races }

/-! ## Inputs -/

/-- The inputs yet to land are `inputs`. -/
def State.withInputs (s : State) (inputs : List Input) : State := { s with inputs := inputs }

/-- The consumer is granted `burst` bytes in this step (42_decoder R177; assumption log 5). -/
def State.withBurst (s : State) (burst : Option Nat) : State := { s with burst := burst }

/-- The surface inputs (10_state R34). -/
def State.withSurface (s : State) (attached : Bool) (size strideBits : Word) : State :=
  { s with dstAttached := attached, dstSize := size, dstStrideBits := strideBits }

/-! ## Output ports -/

/-- The error code of an event (60_exceptions R200). -/
def ErrorEvent.code : ErrorEvent → Nat
  | .oversize => 1
  | .unknownKind => 2
  | .dstBounds => 3
  | .noDst => 4
  | .runtStart => 5

/-- `raise <Error>(info)` (00_scope R13, 60_exceptions R200): the pipeline's ONE shared way to take an error. It
emits one event and nothing else: nothing is saved, no control is transferred, nothing is sticky (R205, R210).
There is no return operation to stand beside it (R210). -/
def State.raise (s : State) (e : ErrorEvent) (info : Nat) : State :=
  { s with trace := s.trace ++ [.errOut e (BitVec.ofNat 64 info)] }

/-- The `DST_WR` transactions of writes at `a`, `a + 1`, … in the order issued (10_state R35, 20_memory R57). -/
def dstTransactions : Nat → List Byte → List Transaction
  | _, [] => []
  | a, b :: bs => .dstWr a b :: dstTransactions (a + 1) bs

/-- `DstOutOfSurface`, one for each write at an address at or above `size` (20_memory R68). -/
def outOfSurface (size : Nat) : Nat → List Byte → List Fault
  | _, [] => []
  | a, _ :: bs =>
    if a < size then outOfSurface size (a + 1) bs else .dstOutOfSurface a :: outOfSurface size (a + 1) bs

/-- `MemWrite(DST, a, 1, b)` for each of the bytes, increasing address (10_state R35, 20_memory R53, R57, R68). -/
def State.writeDst (s : State) (a : Nat) (bytes : List Byte) : State :=
  { s with
    dst := Memory.surfaceWrites s.cSize.toNat s.dst a bytes
    trace := s.trace ++ dstTransactions a bytes
    faults := s.faults ++ outOfSurface s.cSize.toNat a bytes }

end Sys2Proof.Machine
end

