-- ==== Sys2Proof/Machine/Operands.lean ====
section
/-! DEFINITION. The operand forms of the operations: the consumer's payload reads, the destination offset, the
repeat pixel and the bytes a step may move. -/

namespace Sys2Proof.Machine

/-- A payload byte as the memory holds it: a byte nothing has written since power-up is a free value of its Slot and
index (10_state R24, R40; 93 U6). -/
def storedByte (i : SlotIdx) (payload : Memory) (a : Nat) : Byte :=
  (Memory.read payload a).getD (Config.powerUpByte i.val a)

/-- What index `a` of the held Slot held before each write of the producer to it during the holding
(20_memory R65). -/
def State.raceValues (s : State) (a : Nat) : List Byte :=
  s.races.filterMap fun r =>
    if r.base ≤ a ∧ a < r.base + r.count then some (storedByte s.tail r.before a) else none

/-- One of a byte and earlier values of it, by the free value of read number `d`. -/
def pickByte (now : Byte) (earlier : List Byte) (d : Nat) : Byte :=
  (now :: earlier).getD (Config.racePick d % (earlier.length + 1)) now

/-- `PayloadRead(a)`, as read number `d` (42_decoder R170): the byte of the held Slot; on a Slot race any of the values
before and after the producer's writes (20_memory R65); at or above `CAPACITY` any byte (93 U12). -/
def State.payloadByte (s : State) (a d : Nat) : Byte :=
  if a < s.cfg.capacity.bytes then
    match s.raceValues a with
    | [] => storedByte s.tail (s.slot s.tail).payload a
    | v :: vs => pickByte (storedByte s.tail (s.slot s.tail).payload a) (v :: vs) d
  else Config.freeByte d

/-- `PayloadRead` of `count` successive indices from `a`, each byte once, in increasing order (20_memory R57). -/
def State.payloadBytes (s : State) (a count : Nat) : List Byte :=
  (List.range count).map fun j => s.payloadByte (a + j) (s.draws + j)

/-- `count` payload reads were made. -/
def State.countReads (s : State) (count : Nat) : State := { s with draws := s.draws + count }

/-- The destination byte offset (42_decoder R165): exact arithmetic (R166), floor division. -/
def dstOffset (x y : Half) (strideBits : Word) : Nat :=
  (x.toNat * bitsPerPixel + y.toNat * strideBits.toNat) / 8

/-- `c_base + c_len`, the end address of the RAW bounds check (42_decoder R167). -/
def State.rawEnd (s : State) : Nat := s.cBase + s.cLen.toNat

/-- `2 * n`, the decoded bytes of a segment (30_encoding R95, R96). -/
def decodedBytes (countM1 : BitVec 6) : Nat := pixelBytes * pixelCount countM1

/-- Bytes `from, from + 1, …` of the repeated pixel (42_decoder R172): the first data byte at the lower address. -/
def repeatBytes (p0 p1 : Byte) (start count : Nat) : List Byte :=
  (List.range count).map fun j => if (start + j) % 2 = 0 then p0 else p1

/-- How many of `left` bytes this step moves (42_decoder R177; assumption log 5). -/
def State.granted (s : State) (left : Nat) : Nat :=
  match s.burst with
  | none => left
  | some b => min b left

end Sys2Proof.Machine
end

