-- ==== Sys2Proof/Machine/Flags.lean ====
section
/-! DEFINITION. The computed conditions and the flag updates: `is_short`, occupancy, the wake-up bit, the
invocation bits, the bounds tests, and which internal operation is enabled. -/

namespace Sys2Proof.Machine

/-- `is_short` (30_encoding R82). -/
def isShort (len : Nat) : Bool := len < maxChunk

/-- `occupancy = (head - tail) mod N` (41_ring R141). -/
def State.occupancy (s : State) : Nat := (s.head.val + numSlots - s.tail.val) % numSlots

/-- "Exceeds" is strictly greater (42_decoder R167, R175). -/
def State.exceedsSurface (s : State) (endAddr : Nat) : Bool := s.cSize.toNat < endAddr

/-- The append test `length + count <= CAPACITY`, an exact sum (40_reassembler R116). -/
def State.fits (s : State) (total : Nat) : Bool := total ≤ s.cfg.capacity.bytes

/-- `SIGNAL` (40_reassembler R120). -/
def State.signalled (s : State) : State := { s with pending := true }

/-- `COMMIT` (40_reassembler R119): `head` advances, then `SIGNAL`. It does not read `tail`. -/
def State.committed (s : State) : State := State.signalled { s with head := nextIdx s.head }

/-- The commit that ends a message (30_encoding R82, 40_reassembler R112, R116). -/
def State.commitIfShort (s : State) (len : Nat) : State := if isShort len then s.committed else s

/-- The return of an invocation (41_ring R148). -/
def State.returned (s : State) : State := { s with running := false, cPhase := .idle }

/-- The internal operation that is enabled: `INVOKE` (41_ring R146) or the one consumer micro-step of `c_phase`
(42_decoder R160). In phase `RLE` it is `RLE_BLT` between segments and the segment's own operation, decoded from its
header, within one (assumption log 5, 6). -/
def State.enabledStep (s : State) : Option Instr :=
  if s.running then
    match s.cPhase with
    | .idle => none
    | .check => some .check
    | .loop => some .take
    | .raw => some .rawBlt
    | .rle =>
      match s.cSeg with
      | none => some .rleBlt
      | some g => some (decodeSegment g.header)
    | .release => some .release
  else if s.pending then some .invoke
  else none

/-- The internal operation `i` on `s`: refused unless it is the enabled one (assumption log 17). -/
def State.whenEnabled (s : State) (i : Instr) (t : State) : Host.Outcome State Fault Refusal :=
  if s.enabledStep = some i then .next t else .refused .notEnabled

end Sys2Proof.Machine
end

