-- ==== Sys2Proof/Machine/Compositor.lean ====
section
/-! DEFINITION. The Decoder/Compositor `C` (spec 42_decoder): the micro-steps of an invocation. -/

namespace Sys2Proof.Machine

/-- The effect of the surface check (42_decoder R161). -/
def State.checked (s : State) : State :=
  if s.cAtt then { s with cPhase := .loop } else (s.raise .noDst 0).returned

/-- The take (42_decoder R163): the descriptor of `slot[tail]` is sampled and the cursors are set. A new holding
starts, with no segment and no race. -/
def State.latched (s : State) : State :=
  let t := s.slot s.tail
  { s with
    cKind := t.kind
    cX := t.x
    cY := t.y
    cLen := t.length
    cBase := dstOffset t.x t.y s.cStride
    rd := 0
    wr := dstOffset t.x t.y s.cStride
    cSeg := none
    races := [] }

/-- The dispatch on the sampled kind (42_decoder R164) with the RAW bounds check (R167). -/
def State.dispatched (s : State) : State :=
  match s.cKind with
  | .rawBlt =>
    if s.exceedsSurface s.rawEnd then { s.raise .dstBounds s.rawEnd with cPhase := .release }
    else { s with cPhase := .raw }
  | .rleBlt => { s with cPhase := .rle }

/-- The effect of the loop step (42_decoder R162 to R164). -/
def State.taken (s : State) : State := if s.tail = s.head then s.returned else s.latched.dispatched

/-- Up to the granted number of iterations of the RAW copy loop, and its end (42_decoder R168). -/
def State.rawCopied (s : State) : State :=
  let left := s.cLen.toNat - s.rd
  let n := s.granted left
  let copied := (s.writeDst (s.cBase + s.rd) (s.payloadBytes s.rd n)).countReads n
  { copied with
    rd := s.rd + n
    cPhase := if n = left then .release else .raw }

/-- The loop test of the RLE decoder, the read of a segment header and the optional guard (42_decoder R169, R170, R173,
R175). The segment's own operation follows. -/
def State.segmentBegun (s : State) : State :=
  if s.cLen.toNat ≤ s.rd then { s with cPhase := .release }
  else
    let h := s.payloadByte s.rd s.draws
    let endAddr := s.wr + decodedBytes (segCountM1 h)
    if s.cfg.rleGuard && s.exceedsSurface endAddr then
      { (s.countReads 1).raise .dstBounds endAddr with cPhase := .release }
    else { s.countReads 1 with cSeg := some { header := h, moved := 0, pixel := none } }

/-- `CHECK` (42_decoder R161). -/
def execCheck (s : State) : Host.Outcome State Fault Refusal := s.whenEnabled .check s.checked

/-- `TAKE` (42_decoder R162 to R164, R167). -/
def execTake (s : State) : Host.Outcome State Fault Refusal := s.whenEnabled .take s.taken

/-- `RAW_BLT` (42_decoder R168). -/
def execRawBlt (s : State) : Host.Outcome State Fault Refusal := s.whenEnabled .rawBlt s.rawCopied

/-- `RLE_BLT` (42_decoder R169). -/
def execRleBlt (s : State) : Host.Outcome State Fault Refusal := s.whenEnabled .rleBlt s.segmentBegun

end Sys2Proof.Machine
end

