-- ==== Sys2Proof/Machine/Reassembler.lean ====
section
/-! DEFINITION. The Frame Reassembler `P` (spec 40_reassembler): the chunk forms, `COMMIT` and `SIGNAL`. -/

namespace Sys2Proof.Machine

/-- The body shared by 40_reassembler R112 and R113. -/
def State.acceptStart (s : State) (k : Kind) (x y width height : Half) (payload : List Byte) : State :=
  let stored := s.storePayload 0 payload
  let filled := stored.setSlot s.head
    { kind := k
      x := x
      y := y
      width := width
      height := height
      length := BitVec.ofNat 32 payload.length
      payload := (stored.slot s.head).payload }
  State.commitIfShort { filled with drop := false } (hdrLen + payload.length)

/-- The append of 40_reassembler R116, once the sum test has passed. -/
def State.append (s : State) (bytes : List Byte) : State :=
  let stored := s.storePayload (s.slot s.head).length.toNat bytes
  let filled := stored.setSlot s.head
    { stored.slot s.head with length := BitVec.ofNat 32 ((s.slot s.head).length.toNat + bytes.length) }
  State.commitIfShort filled bytes.length

/-- `START.RAW_BLT` (40_reassembler R112). -/
def execStartRawBlt (x y width height : Half) (payload : List Byte) (s : State) :
    Host.Outcome State Fault Refusal :=
  .next (s.acceptStart .rawBlt x y width height payload)

/-- `START.RLE_BLT` (40_reassembler R113). -/
def execStartRleBlt (x y width height : Half) (payload : List Byte) (s : State) :
    Host.Outcome State Fault Refusal :=
  .next (s.acceptStart .rleBlt x y width height payload)

/-- `START.RUNT` with byte 0 = 0x81 (40_reassembler R115): the information word is the chunk length. -/
def execStartRuntRaw (rest : List Byte) (s : State) : Host.Outcome State Fault Refusal :=
  .next (s.raise .runtStart (1 + rest.length))

/-- `START.RUNT` with byte 0 = 0x82 (40_reassembler R115). -/
def execStartRuntRle (rest : List Byte) (s : State) : Host.Outcome State Fault Refusal :=
  .next (s.raise .runtStart (1 + rest.length))

/-- `START.UNKNOWN` (40_reassembler R114): the information word is the command byte. The bytes after byte 0 are not
looked at. -/
def execStartUnknown (kind : BitVec 7) (_rest : List Byte) (s : State) : Host.Outcome State Fault Refusal :=
  .next (s.raise .unknownKind (commandByte kind).toNat)

/-- `CONT` (40_reassembler R116 to R118). -/
def execCont (bytes : List Byte) (s : State) : Host.Outcome State Fault Refusal :=
  let total := (s.slot s.head).length.toNat + bytes.length
  if s.drop then .next s
  else if s.fits total then .next (s.append bytes)
  else .next { s.raise .oversize total with drop := true }

/-- `COMMIT` (40_reassembler R119). -/
def execCommit (s : State) : Host.Outcome State Fault Refusal := .next s.committed

/-- `SIGNAL` (40_reassembler R120). -/
def execSignal (s : State) : Host.Outcome State Fault Refusal := .next s.signalled

end Sys2Proof.Machine
end

