-- ==== Sys2Proof/Machine/Ring.lean ====
section
/-! DEFINITION. The scheduler glue `S` and the release of a Slot (spec 41_ring), and the `reset` input
(spec 70_reset_and_hazards). -/

namespace Sys2Proof.Machine

/-- The effect of `INVOKE` (41_ring R146). -/
def State.invoked (s : State) : State :=
  { s with
    pending := false
    running := true
    cAtt := s.dstAttached
    cSize := s.dstSize
    cStride := s.dstStrideBits
    cPhase := .check }

/-- The effect of `RELEASE` (41_ring R149). The holding ends, and with it its races. -/
def State.released (s : State) : State :=
  { s with
    tail := nextIdx s.tail
    cPhase := .loop
    races := [] }

/-- The effect of `reset` (70 R230, 10_state R40): every register; not the payload memories, not `DST`, not the
history, not the environment's inputs (assumption log 12, 14). -/
def State.resetRegisters (s : State) : State :=
  { s with
    head := 0
    tail := 0
    slot0 := Slot.cleared s.slot0.payload
    slot1 := Slot.cleared s.slot1.payload
    drop := false
    pending := false
    running := false
    cPhase := .idle
    cAtt := false
    cSize := 0#32
    cStride := 0#32
    cKind := .rawBlt
    cX := 0#16
    cY := 0#16
    cLen := 0#32
    cBase := 0
    rd := 0
    wr := 0
    cSeg := none
    races := [] }

/-- `INVOKE` (41_ring R146). -/
def execInvoke (s : State) : Host.Outcome State Fault Refusal := s.whenEnabled .invoke s.invoked

/-- `RELEASE` (41_ring R149). -/
def execRelease (s : State) : Host.Outcome State Fault Refusal := s.whenEnabled .release s.released

/-- `RESET` (70_reset_and_hazards R230, R232): enabled between any two steps. -/
def execReset (s : State) : Host.Outcome State Fault Refusal := .next s.resetRegisters

end Sys2Proof.Machine
end

