-- ==== Sys2Proof/Machine/Segments.lean ====
section
/-! DEFINITION. The two segment forms of the RLE decoder (spec 42_decoder R171, R172). -/

namespace Sys2Proof.Machine

/-- The cursor advance after a segment, or the segment's progress (42_decoder R171 to R173): `total` decoded bytes, of
which `moved` are written; `size` is the encoded size, header included. -/
def State.segmentMoved (s : State) (g : Segment) (moved total size : Nat) : State :=
  if moved = total then { s with rd := s.rd + size, wr := s.wr + total, cSeg := none }
  else { s with cSeg := some { g with moved := moved } }

/-- Up to the granted number of bytes of a literal segment (42_decoder R171). -/
def State.literalMoved (s : State) (g : Segment) (countM1 : BitVec 6) : State :=
  let total := decodedBytes countM1
  let n := s.granted (total - g.moved)
  let copied := (s.writeDst (s.wr + g.moved) (s.payloadBytes (s.rd + 1 + g.moved) n)).countReads n
  copied.segmentMoved g (g.moved + n) total (1 + total)

/-- The two data bytes of a repeat segment, read once, before the first store (42_decoder R172). -/
def State.pixelRead (s : State) (g : Segment) : Byte × Byte :=
  match g.pixel with
  | some p => p
  | none => (s.payloadByte (s.rd + 1) s.draws, s.payloadByte (s.rd + 2) (s.draws + 1))

/-- How many payload reads `pixelRead` makes. -/
def Segment.pixelReads (g : Segment) : Nat :=
  match g.pixel with
  | some _ => 0
  | none => 2

/-- Up to the granted number of bytes of a repeat segment (42_decoder R172). -/
def State.repeatMoved (s : State) (g : Segment) (countM1 : BitVec 6) : State :=
  let total := decodedBytes countM1
  let n := s.granted (total - g.moved)
  let p := s.pixelRead g
  let copied := (s.writeDst (s.wr + g.moved) (repeatBytes p.1 p.2 g.moved n)).countReads g.pixelReads
  copied.segmentMoved { g with pixel := some p } (g.moved + n) total 3

/-- `SEG.LITERAL` (42_decoder R171). -/
def execSegLiteral (bit6 : Bool) (countM1 : BitVec 6) (s : State) : Host.Outcome State Fault Refusal :=
  match s.cSeg with
  | some g => s.whenEnabled (.segLiteral bit6 countM1) (s.literalMoved g countM1)
  | none => .refused .notEnabled

/-- `SEG.REPEAT` (42_decoder R172). -/
def execSegRepeat (bit6 : Bool) (countM1 : BitVec 6) (s : State) : Host.Outcome State Fault Refusal :=
  match s.cSeg with
  | some g => s.whenEnabled (.segRepeat bit6 countM1) (s.repeatMoved g countM1)
  | none => .refused .notEnabled

end Sys2Proof.Machine
end

