-- ==== Sys2Proof/Machine/Dispatch.lean ====
section
/-! DEFINITION. One arm per operation of the opcode table. -/

namespace Sys2Proof.Machine

def exec (i : Instr) (s : State) : Host.Outcome State Fault Refusal :=
  match i with
  | .startRawBlt x y width height payload => Sys2Proof.Machine.execStartRawBlt x y width height payload s
  | .startRleBlt x y width height payload => Sys2Proof.Machine.execStartRleBlt x y width height payload s
  | .startRuntRaw rest => Sys2Proof.Machine.execStartRuntRaw rest s
  | .startRuntRle rest => Sys2Proof.Machine.execStartRuntRle rest s
  | .startUnknown kind rest => Sys2Proof.Machine.execStartUnknown kind rest s
  | .cont bytes => Sys2Proof.Machine.execCont bytes s
  | .commit => Sys2Proof.Machine.execCommit s
  | .signal => Sys2Proof.Machine.execSignal s
  | .invoke => Sys2Proof.Machine.execInvoke s
  | .check => Sys2Proof.Machine.execCheck s
  | .take => Sys2Proof.Machine.execTake s
  | .rawBlt => Sys2Proof.Machine.execRawBlt s
  | .rleBlt => Sys2Proof.Machine.execRleBlt s
  | .segLiteral bit6 countM1 => Sys2Proof.Machine.execSegLiteral bit6 countM1 s
  | .segRepeat bit6 countM1 => Sys2Proof.Machine.execSegRepeat bit6 countM1 s
  | .release => Sys2Proof.Machine.execRelease s
  | .reset => Sys2Proof.Machine.execReset s

end Sys2Proof.Machine
end

