-- ==== Sys2Proof/Machine/Fetch.lean ====
section
/-! DEFINITION. What the next step runs: the next input of the environment, or the enabled internal operation
(spec 00_scope R10, 60_exceptions R208, R209; assumption log 3). -/

namespace Sys2Proof.Machine

/-- What a step turns out to be. -/
inductive Fetched where
  /-- operation `i` runs on `s` -/
  | operation (i : Instr) (s : State)
  /-- no operation of the opcode table: an environment move, an idle turn or a refusal -/
  | settled (o : Host.Outcome State Fault Refusal)

/-- A turn of the internal agents with that burst: the enabled operation, or nothing at all
(60_exceptions R215, 70 R244). -/
def fetchInternal (burst : Option Nat) (s : State) : Fetched :=
  match s.enabledStep with
  | some i => .operation i (s.withBurst burst)
  | none => .settled (.next s)

/-- A delivered chunk, in the byte order of the parameters (10_state R32, 40_reassembler R110, R111). -/
def fetchChunk (bytes : List Byte) (s : State) : Fetched :=
  match decode s.cfg.hdrEndian .chunk bytes with
  | .ok i => .operation i s
  | .error _ => .settled (.refused .chunkTooLong)

/-- A move of the surface owner: it only sets the inputs and starts nothing (60_exceptions R208); there is none while
`running` (70 R241, 93 U8). -/
def moveSurface (attached : Bool) (size strideBits : Word) (s : State) : Host.Outcome State Fault Refusal :=
  if s.running then .refused .surfaceMovedWhileRunning
  else .next (s.withSurface attached size strideBits)

/-- The next input lands, or, with none left, the internal agents take a turn. -/
def fetch (s : State) : Fetched :=
  match s.inputs with
  | [] => fetchInternal none s
  | .turn burst :: rest => fetchInternal burst (s.withInputs rest)
  | .chunk bytes :: rest => fetchChunk bytes (s.withInputs rest)
  | .surface attached size strideBits :: rest => .settled (moveSurface attached size strideBits (s.withInputs rest))
  | .reset :: rest => .operation .reset (s.withInputs rest)

/-- `s` with a delivered chunk as its next input. -/
def State.withChunk (s : State) (bytes : List Byte) : State := s.withInputs (.chunk bytes :: s.inputs)

/-- `s` with the consumer about to run the operation of that phase (assumption log 4). -/
def State.withPhase (s : State) (phase : Phase) : State :=
  { s with
    inputs := .turn none :: s.inputs
    running := true
    cPhase := phase
    cSeg := none }

/-- `s` about to run an opcode-table word (assumption log 4). -/
def State.withTableWord (s : State) (nbits w : Nat) : State :=
  if isTableKindCode nbits w then s.withPhase (if w = 1 then .raw else .rle)
  else s.withChunk (tableChunk nbits w)

end Sys2Proof.Machine
end

