-- ==== Sys2Proof/Machine/Step.lean ====
section
/-! DEFINITION. One step of the machine. -/

namespace Sys2Proof.Machine

/-- What `fetch` finds is run by `exec` (00_scope R10, R11). -/
def step (s : State) : Host.Outcome State Fault Refusal :=
  match fetch s with
  | .operation i t => exec i t
  | .settled o => o

/-- `s` whose next step runs the opcode-table word `w` (assumption log 4). -/
def State.withFetchWord (s : State) (nbits w : Nat) : State := s.withTableWord nbits w

end Sys2Proof.Machine
end

