-- ==== Sys2Proof/Safety.lean ====
section
/-! DEFINITION. The terms the claims are stated in: the invariant of the pipeline, quiescence, the groups of
operations by agent, and messages and segment sequences as the spec describes them. -/

namespace Sys2Proof.Machine

/-! ## The invariant -/

/-- A Slot's payload memory is canonical and inside `CAPACITY` (20_memory R52), and its `length` too. -/
abbrev Slot.Inv (capacity : Nat) (v : Slot) : Prop :=
  Memory.wf v.payload = true ∧ Memory.within capacity v.payload = true ∧ v.length.toNat ≤ capacity

/-- All byte memories are canonical. -/
abbrev State.MemoryInv (s : State) : Prop :=
  Slot.Inv s.cfg.capacity.bytes s.slot0 ∧ Slot.Inv s.cfg.capacity.bytes s.slot1 ∧ Memory.wf s.dst = true

/-- `c_phase` is `IDLE` exactly when `running` is false (10_state R30), and past the surface check there is a surface
(42_decoder R161). -/
abbrev State.PhaseInv (s : State) : Prop :=
  (s.running = false ↔ s.cPhase = .idle) ∧
    (s.cPhase ≠ .idle → s.cPhase ≠ .check → s.cAtt = true)

/-- While a Slot is held the sampled length is inside `CAPACITY` and `c_base` is the offset of the sampled header
(42_decoder R163, R165); while none is held no race is kept. -/
abbrev State.HoldingInv (s : State) : Prop :=
  (s.holds = true → s.cLen.toNat ≤ s.cfg.capacity.bytes ∧ s.cBase = dstOffset s.cX s.cY s.cStride) ∧
    (s.holds = false → s.races = [])

/-- In the RAW copy the bounds check has passed and the read cursor is inside the message (42_decoder R167, R168). -/
abbrev State.RawInv (s : State) : Prop :=
  s.cPhase = .raw → s.cKind = .rawBlt ∧ s.rawEnd ≤ s.cSize.toNat ∧ s.rd ≤ s.cLen.toNat

/-- In the RLE decoder every segment has moved `rd` by at least 3 and `wr` by at most 128, and the last one may have
read up to 128 bytes past the length (42_decoder R166, R173, R174). -/
abbrev State.RleInv (s : State) : Prop :=
  s.cPhase = .rle → s.cKind = .rleBlt ∧ s.cBase ≤ s.wr ∧ 3 * (s.wr - s.cBase) ≤ 128 * s.rd ∧
    s.rd ≤ s.cLen.toNat + 128

/-- A segment in progress: its header lies below the length, some of it is still to be written, and with the guard it
ends inside the surface (42_decoder R169, R174, R175). -/
abbrev State.SegmentInv (s : State) : Prop :=
  ∀ g, s.cSeg = some g → s.cPhase = .rle ∧ s.rd < s.cLen.toNat ∧ g.moved < decodedBytes (segCountM1 g.header) ∧
    (s.cfg.rleGuard = true → s.wr + decodedBytes (segCountM1 g.header) ≤ s.cSize.toNat)

/-- The invariant every step keeps. -/
abbrev State.Inv (s : State) : Prop :=
  s.MemoryInv ∧ s.PhaseInv ∧ s.HoldingInv ∧ s.RawInv ∧ s.RleInv ∧ s.SegmentInv

/-- 70_reset_and_hazards R244. -/
abbrev State.Quiescent (s : State) : Prop := s.inputs = [] ∧ s.pending = false ∧ s.running = false

/-! ## Operations by agent (00_scope R10, spec/opcode_table.json) -/

/-- The forms of a delivered chunk. -/
def isChunkForm : Instr → Bool
  | .startRawBlt _ _ _ _ _ => true
  | .startRleBlt _ _ _ _ _ => true
  | .startRuntRaw _ => true
  | .startRuntRle _ => true
  | .startUnknown _ _ => true
  | .cont _ => true
  | .commit => false
  | .signal => false
  | .invoke => false
  | .check => false
  | .take => false
  | .rawBlt => false
  | .rleBlt => false
  | .segLiteral _ _ => false
  | .segRepeat _ _ => false
  | .release => false
  | .reset => false

/-- The accepted start chunks (40_reassembler R112, R113). -/
def isAcceptedStart : Instr → Bool
  | .startRawBlt _ _ _ _ _ => true
  | .startRleBlt _ _ _ _ _ => true
  | .startRuntRaw _ => false
  | .startRuntRle _ => false
  | .startUnknown _ _ => false
  | .cont _ => false
  | .commit => false
  | .signal => false
  | .invoke => false
  | .check => false
  | .take => false
  | .rawBlt => false
  | .rleBlt => false
  | .segLiteral _ _ => false
  | .segRepeat _ _ => false
  | .release => false
  | .reset => false

/-- The micro-steps of the consumer (42_decoder R160). -/
def isMicroStep : Instr → Bool
  | .startRawBlt _ _ _ _ _ => false
  | .startRleBlt _ _ _ _ _ => false
  | .startRuntRaw _ => false
  | .startRuntRle _ => false
  | .startUnknown _ _ => false
  | .cont _ => false
  | .commit => false
  | .signal => false
  | .invoke => false
  | .check => true
  | .take => true
  | .rawBlt => true
  | .rleBlt => true
  | .segLiteral _ _ => true
  | .segRepeat _ _ => true
  | .release => true
  | .reset => false

/-- The transaction is an error event. -/
def Transaction.isErrOut : Transaction → Bool
  | .dstWr _ _ => false
  | .errOut _ _ => true

/-- The transaction writes address `a`. -/
def Transaction.writes (a : Nat) : Transaction → Bool
  | .dstWr addr _ => addr == a
  | .errOut _ _ => false

/-- The fault of a transaction, over a surface of `size` bytes: a write at or above `size` (20_memory R68). -/
def Transaction.fault (size : Nat) : Transaction → Option Fault
  | .dstWr addr _ => if size ≤ addr then some (.dstOutOfSurface addr) else none
  | .errOut _ _ => none

/-! ## Messages (30_encoding R90, R91) -/

/-- An Update Message: its kind, its header, the payload of its START chunk and its CONT chunks. -/
structure Message where
  kind : Kind
  x : Half
  y : Half
  width : Half
  height : Half
  first : List Byte
  rest : List (List Byte)
  deriving DecidableEq, Repr

/-- The payload: the chunks' payload bytes in arrival order. -/
def Message.payload (m : Message) : List Byte := m.first ++ m.rest.flatten

/-- CONT chunks that end a message: all but the last are full, the last is short, and each is a CONT chunk. -/
def contsEnd : List (List Byte) → Bool
  | [] => false
  | [c] => firstBitClear c && decide (c.length < maxChunk)
  | c :: cs => firstBitClear c && decide (c.length = maxChunk) && contsEnd cs

/-- The framing of 30_encoding R90 and R91: a short START chunk alone, or a full one and its CONT chunks. -/
def Message.framed (m : Message) : Bool :=
  match m.rest with
  | [] => decide (hdrLen + m.first.length < maxChunk)
  | c :: cs => decide (hdrLen + m.first.length = maxChunk) && contsEnd (c :: cs)

/-- The message as the chunks on the wire. -/
def Message.chunks (e : Endian) (m : Message) : List (List Byte) :=
  encodeStart e (kindCode m.kind) m.x m.y m.width m.height m.first
    :: m.rest

/-- The chunk an input delivers. -/
def Input.delivered : Input → Option (List Byte)
  | .chunk bytes => some bytes
  | .surface _ _ _ => none
  | .reset => none
  | .turn _ => none

/-- The input is a delivered chunk or a turn of the internal agents. -/
def Input.isTraffic : Input → Bool
  | .chunk _ => true
  | .surface _ _ _ => false
  | .reset => false
  | .turn _ => true

/-- The chunk fits the port and is no accepted START chunk. -/
def notAcceptedStart (e : Endian) (bytes : List Byte) : Bool :=
  match decode e .chunk bytes with
  | .ok i => !isAcceptedStart i
  | .error _ => false

/-! ## Segment sequences (30_encoding R95 to R97, 42_decoder R180) -/

/-- A segment with its data. -/
inductive RleSegment where
  | literal (bit6 : Bool) (countM1 : BitVec 6) (data : List Byte)
  | repeated (bit6 : Bool) (countM1 : BitVec 6) (p0 p1 : Byte)
  deriving DecidableEq, Repr

/-- A literal segment has `pixel_count * 2` data bytes (30_encoding R95). -/
def RleSegment.wf : RleSegment → Bool
  | .literal _ countM1 data => decide (data.length = 2 * (countM1.toNat + 1))
  | .repeated _ _ _ _ => true

/-- The segment's bytes in a payload (30_encoding R95, R96). -/
def RleSegment.encoded : RleSegment → List Byte
  | .literal bit6 countM1 data => encodeSegment false bit6 countM1 :: data
  | .repeated bit6 countM1 p0 p1 => [encodeSegment true bit6 countM1, p0, p1]

/-- `E(g)` (42_decoder R180). -/
def RleSegment.expanded : RleSegment → List Byte
  | .literal _ _ data => data
  | .repeated _ countM1 p0 p1 => (List.replicate (countM1.toNat + 1) [p0, p1]).flatten

end Sys2Proof.Machine
end

