-- ==== Sys2Proof/Certificates/Slice0/Obligations.lean ====
section
/-! DEFINITION. The statements for the provers, each naming the rule of spec/ it formalises. No statement rests on
a value of a parameter (`cfg`) or of a free value. "log <n>" is a row of notes/assumptions/: where a clause rests on the
model's own choice, the docstring names the row. -/

open Sys2Proof Sys2Proof.Machine

/-! ## Encodings -/

/-- 30_encoding R101: the worked encodings, both ways. -/
def Obligations.WorkedEncodings : Prop :=
  encode .le (.startRawBlt 0#16 0#16 10#16 1#16 []) =
      some (.chunk, [0x81#8, 0#8, 0#8, 0#8, 0#8, 0x0A#8, 0#8, 0x01#8, 0#8]) ∧
    encode .be (.startRawBlt 0#16 0#16 10#16 1#16 []) =
      some (.chunk, [0x81#8, 0#8, 0#8, 0#8, 0#8, 0#8, 0x0A#8, 0#8, 0x01#8]) ∧
    decode .le .chunk [0x81#8, 0#8, 0#8, 0#8, 0#8, 0x0A#8, 0#8, 0x01#8, 0#8] =
      .ok (.startRawBlt 0#16 0#16 10#16 1#16 []) ∧
    decode .be .chunk [0x81#8, 0#8, 0#8, 0#8, 0#8, 0#8, 0x0A#8, 0#8, 0x01#8] =
      .ok (.startRawBlt 0#16 0#16 10#16 1#16 []) ∧
    (RleSegment.repeated false 63#6 0xCD#8 0xAB#8).encoded = [0xBF#8, 0xCD#8, 0xAB#8] ∧
    (RleSegment.literal false 0#6 [0x34#8, 0x12#8]).encoded = [0x00#8, 0x34#8, 0x12#8] ∧
    decode .le .segment [0x3F#8] = .ok (.segLiteral false 63#6) ∧
    decode .le .segment [0x80#8] = .ok (.segRepeat false 0#6)

/-- Decoding an encoded well-formed operation gives it back, in the space it was encoded in, for both byte orders; the
operations with no encoding are the rows the opcode table calls internal (30_encoding R83 to R89, R94). -/
def Obligations.EncodedOperationDecodesBack : Prop :=
  (∀ (e : Endian) (i : Instr) (sp : Space) (bytes : List Byte),
      i.wf = true → encode e i = some (sp, bytes) → decode e sp bytes = .ok i) ∧
    ∀ (e : Endian) (i : Instr),
      encode e i = none ↔ i ∈ [Instr.commit, .signal, .invoke, .check, .take, .release, .reset]

/-- Every chunk the port can carry is the encoding of exactly one well-formed operation, and the decoder finds it
(40_reassembler R110 "never refuses a chunk", R111 "Exactly one of the five rules applies to every chunk"). -/
def Obligations.EveryChunkIsExactlyOneForm : Prop :=
  ∀ (e : Endian) (bytes : List Byte), bytes.length ≤ 512 →
    ∃ i, decode e .chunk bytes = .ok i ∧ i.wf = true ∧ encode e i = some (.chunk, bytes) ∧
      ∀ j, j.wf = true → encode e j = some (.chunk, bytes) → j = i

/-- 40_reassembler R111 with the classification of 30_encoding R81 and the layout of R85: which form a chunk is, and where
its operands stand. -/
def Obligations.ChunkDispatch : Prop :=
  ∀ (e : Endian) (bytes : List Byte), bytes.length ≤ 512 →
    (bytes = [] → decode e .chunk bytes = .ok (.cont [])) ∧
    ∀ c rest, bytes = c :: rest →
      (c.getLsbD 7 = false → decode e .chunk bytes = .ok (.cont bytes)) ∧
      (c.getLsbD 7 = true →
        (c.toNat % 128 ≠ 1 → c.toNat % 128 ≠ 2 →
          decode e .chunk bytes = .ok (.startUnknown (BitVec.ofNat 7 (c.toNat % 128)) rest)) ∧
        (c.toNat % 128 = 1 → bytes.length < 9 → decode e .chunk bytes = .ok (.startRuntRaw rest)) ∧
        (c.toNat % 128 = 2 → bytes.length < 9 → decode e .chunk bytes = .ok (.startRuntRle rest)) ∧
        (c.toNat % 128 = 1 → 9 ≤ bytes.length →
          decode e .chunk bytes =
            .ok (.startRawBlt (u16 e (bytes.getD 1 0#8) (bytes.getD 2 0#8)) (u16 e (bytes.getD 3 0#8) (bytes.getD 4 0#8))
              (u16 e (bytes.getD 5 0#8) (bytes.getD 6 0#8)) (u16 e (bytes.getD 7 0#8) (bytes.getD 8 0#8))
              (bytes.drop 9))) ∧
        (c.toNat % 128 = 2 → 9 ≤ bytes.length →
          decode e .chunk bytes =
            .ok (.startRleBlt (u16 e (bytes.getD 1 0#8) (bytes.getD 2 0#8)) (u16 e (bytes.getD 3 0#8) (bytes.getD 4 0#8))
              (u16 e (bytes.getD 5 0#8) (bytes.getD 6 0#8)) (u16 e (bytes.getD 7 0#8) (bytes.getD 8 0#8))
              (bytes.drop 9))))

/-- 30_encoding R94: every header byte decodes, bit 7 is the repeat flag, bits 5:0 are `pixel_count - 1`. -/
def Obligations.SegmentHeaderFields : Prop :=
  ∀ (e : Endian) (h : Byte), ∃ countM1 : BitVec 6,
    decode e .segment [h] =
      .ok (if h.getLsbD 7 then .segRepeat (h.getLsbD 6) countM1 else .segLiteral (h.getLsbD 6) countM1) ∧
    pixelCount countM1 = h.toNat % 64 + 1 ∧ 1 ≤ pixelCount countM1 ∧ pixelCount countM1 ≤ 64

/-- 30_encoding R88. -/
def Obligations.HeaderFieldByteOrder : Prop :=
  ∀ b0 b1 : Byte, (u16 .le b0 b1).toNat = b0.toNat + 256 * b1.toNat ∧ (u16 .be b0 b1).toNat = 256 * b0.toNat + b1.toNat

/-! ## The Frame Reassembler -/

/-- 40_reassembler R112 and R113: what an accepted START chunk writes, when it commits, and what it leaves alone. The
last line says that no other field of the state changes; `races` is the model's record of Slot races (log 7). -/
def Obligations.StartChunkFillsTheHeadSlot : Prop :=
  ∀ (s : State) (k : Kind) (x y width height : Half) (payload : List Byte) (i : Instr),
    (k = .rawBlt ∧ i = .startRawBlt x y width height payload) ∨
      (k = .rleBlt ∧ i = .startRleBlt x y width height payload) →
    9 + payload.length ≤ 512 →
    ∃ t, exec i s = .next t ∧
      (t.slot s.head).kind = k ∧ (t.slot s.head).x = x ∧ (t.slot s.head).y = y ∧
      (t.slot s.head).width = width ∧ (t.slot s.head).height = height ∧
      (t.slot s.head).length.toNat = payload.length ∧
      (∀ a, a < payload.length → Memory.read (t.slot s.head).payload a = payload[a]?) ∧
      (∀ a, payload.length ≤ a →
        Memory.read (t.slot s.head).payload a = Memory.read (s.slot s.head).payload a) ∧
      (∀ j, j ≠ s.head → t.slot j = s.slot j) ∧
      t.drop = false ∧
      (9 + payload.length < 512 → t.head.val = (s.head.val + 1) % 2 ∧ t.pending = true) ∧
      (9 + payload.length = 512 → t.head = s.head ∧ t.pending = s.pending) ∧
      t = { s with
        head := t.head, slot0 := t.slot0, slot1 := t.slot1, drop := t.drop, pending := t.pending, races := t.races }

/-- 40_reassembler R114: one event with the command byte, no other change. -/
def Obligations.UnknownKindIsReportedAndIgnored : Prop :=
  ∀ (s : State) (kind : BitVec 7) (rest : List Byte), (Instr.startUnknown kind rest).wf = true →
    exec (.startUnknown kind rest) s =
      .next { s with trace := s.trace ++ [.errOut .unknownKind (BitVec.ofNat 64 (128 + kind.toNat))] }

/-- 40_reassembler R115: one event with the chunk length, no other change, for both command bytes. -/
def Obligations.RuntStartIsReportedAndIgnored : Prop :=
  ∀ (s : State) (rest : List Byte), 1 + rest.length ≤ 8 →
    exec (.startRuntRaw rest) s =
        .next { s with trace := s.trace ++ [.errOut .runtStart (BitVec.ofNat 64 (1 + rest.length))] } ∧
      exec (.startRuntRle rest) s =
        .next { s with trace := s.trace ++ [.errOut .runtStart (BitVec.ofNat 64 (1 + rest.length))] }

/-- 40_reassembler R116, the append: where the bytes go, the new length, when it commits, and what is left alone;
`races` is the model's record of Slot races (log 7). -/
def Obligations.ContinuationAppends : Prop :=
  ∀ (s : State) (bytes : List Byte), bytes.length ≤ 512 → s.drop = false →
    (s.slot s.head).length.toNat + bytes.length ≤ s.cfg.capacity.bytes →
    ∃ t, exec (.cont bytes) s = .next t ∧
      (t.slot s.head).length.toNat = (s.slot s.head).length.toNat + bytes.length ∧
      (∀ a, a < bytes.length →
        Memory.read (t.slot s.head).payload ((s.slot s.head).length.toNat + a) = bytes[a]?) ∧
      (∀ a, a < (s.slot s.head).length.toNat ∨ (s.slot s.head).length.toNat + bytes.length ≤ a →
        Memory.read (t.slot s.head).payload a = Memory.read (s.slot s.head).payload a) ∧
      t.slot s.head =
        { s.slot s.head with length := (t.slot s.head).length, payload := (t.slot s.head).payload } ∧
      (∀ j, j ≠ s.head → t.slot j = s.slot j) ∧
      (bytes.length < 512 → t.head.val = (s.head.val + 1) % 2 ∧ t.pending = true) ∧
      (bytes.length = 512 → t.head = s.head ∧ t.pending = s.pending) ∧
      t = { s with head := t.head, slot0 := t.slot0, slot1 := t.slot1, pending := t.pending, races := t.races }

/-- 40_reassembler R117, 60_exceptions R201: one event with the size that did not fit, `drop` set, nothing stored and
nothing committed, short or not. -/
def Obligations.OversizeContinuationIsDropped : Prop :=
  ∀ (s : State) (bytes : List Byte), s.drop = false →
    s.cfg.capacity.bytes < (s.slot s.head).length.toNat + bytes.length →
    exec (.cont bytes) s =
      .next { s with
        drop := true
        trace := s.trace ++
          [.errOut .oversize (BitVec.ofNat 64 ((s.slot s.head).length.toNat + bytes.length))] }

/-- 40_reassembler R118: a CONT chunk while dropping does nothing at all. -/
def Obligations.DroppedContinuationDoesNothing : Prop :=
  ∀ (s : State) (bytes : List Byte), s.drop = true → exec (.cont bytes) s = .next s

/-- 40_reassembler R125: the empty chunk commits `slot[head]` as it stands; `races` is the model's record of Slot
races (log 7). -/
def Obligations.EmptyChunkCommitsTheSlotAsItStands : Prop :=
  ∀ s : State, s.Inv → s.drop = false →
    ∃ t, exec (.cont []) s = .next t ∧ t.head.val = (s.head.val + 1) % 2 ∧
      t = { s with head := t.head, pending := true, races := t.races }

/-- 40_reassembler R119 and R120. -/
def Obligations.CommitAndSignal : Prop :=
  ∀ s : State,
    (∃ t, exec .commit s = .next t ∧ t.head.val = (s.head.val + 1) % 2 ∧
      t = { s with head := t.head, pending := true }) ∧
    exec .signal s = .next { s with pending := true }

/-- 40_reassembler R121: a framed message that fits, with any turns of the consumer between its chunks, leaves in the Slot
that was `head` its kind, its header, and as payload the concatenation of its chunks' payload bytes; `head` does not move
before the last chunk, and has moved on once after it. -/
def Obligations.MessageCommitsItsWholePayload : Prop :=
  ∀ (s : State) (m : Message) (evs rest : List Input),
    m.framed = true → m.payload.length ≤ s.cfg.capacity.bytes →
    (∀ ev ∈ evs, ev.isTraffic = true) →
    evs.filterMap Input.delivered = m.chunks s.cfg.hdrEndian →
    s.inputs = evs ++ rest →
    (∀ (k : Nat) (u : State),
      ((evs.take k).filterMap Input.delivered).length < (m.chunks s.cfg.hdrEndian).length →
      Host.Core.run core k s = .next u → u.head = s.head) ∧
    ∃ t : State, Host.Core.run core evs.length s = .next t ∧ t.inputs = rest ∧
      t.head.val = (s.head.val + 1) % 2 ∧
      (t.slot s.head).kind = m.kind ∧ (t.slot s.head).x = m.x ∧ (t.slot s.head).y = m.y ∧
      (t.slot s.head).width = m.width ∧ (t.slot s.head).height = m.height ∧
      (t.slot s.head).length.toNat = m.payload.length ∧
      (∀ a, a < m.payload.length → Memory.read (t.slot s.head).payload a = m.payload[a]?) ∧
      (∀ j, j ≠ s.head → t.slot j = s.slot j)

/-- 40_reassembler R122: while `drop` is set, chunks that are no accepted START, with any turns of the consumer between
them, leave `head`, both Slots and `drop` as they are; without turns nothing at all changes but the error events. -/
def Obligations.NothingCommitsWhileDropping : Prop :=
  ∀ (s : State) (evs rest : List Input),
    s.drop = true → (∀ ev ∈ evs, ev.isTraffic = true) →
    (∀ bytes ∈ evs.filterMap Input.delivered, notAcceptedStart s.cfg.hdrEndian bytes = true) →
    s.inputs = evs ++ rest →
    ∃ t : State, Host.Core.run core evs.length s = .next t ∧ t.inputs = rest ∧
      t.drop = true ∧ t.head = s.head ∧ t.slot0 = s.slot0 ∧ t.slot1 = s.slot1 ∧
      ((∀ ev ∈ evs, ∃ bytes, ev = .chunk bytes) →
        ∃ new, (∀ x ∈ new, Transaction.isErrOut x = true) ∧
          t = { s with inputs := rest, trace := s.trace ++ new })

/-! ## The Ring and the scheduler glue -/

/-- 41_ring R146: when `INVOKE` is enabled, and what it does. -/
def Obligations.InvokeStartsAnInvocation : Prop :=
  ∀ s : State,
    ((∃ t, exec .invoke s = .next t) ↔ s.pending = true ∧ s.running = false) ∧
    (s.pending = true → s.running = false →
      exec .invoke s =
        .next { s with
          pending := false
          running := true
          cAtt := s.dstAttached
          cSize := s.dstSize
          cStride := s.dstStrideBits
          cPhase := .check })

/-- 41_ring R149: `RELEASE` advances `tail`; both Slots stay as they are. The end of the holding also ends the model's record
of its races (log 7). -/
def Obligations.ReleaseHandsTheSlotBack : Prop :=
  ∀ s : State, s.running = true → s.cPhase = .release →
    ∃ t, exec .release s = .next t ∧ t.tail.val = (s.tail.val + 1) % 2 ∧
      t = { s with tail := t.tail, cPhase := .loop, races := [] }

/-- 41_ring R141: the Ring looks empty exactly when `tail = head`, and holds at most `N - 1 = 1` Slot. -/
def Obligations.OccupancyOfTheRing : Prop :=
  ∀ s : State, (s.occupancy = 0 ↔ s.tail = s.head) ∧ s.occupancy ≤ 1

/-- 41_ring R144: two short messages delivered with no release between them, to a pipeline at rest with an empty Ring. After
the second commit the Ring looks empty, the invocation renders nothing, reports nothing and returns. That its steps happen at
once when no input is left is the model's choice (log 22). -/
def Obligations.OverrunRendersNothing : Prop :=
  ∀ (s : State) (x y w h x' y' w' h' : Half) (p p' : List Byte),
    s.pending = false → s.running = false → s.cPhase = .idle → s.tail = s.head → s.dstAttached = true →
    9 + p.length < 512 → 9 + p'.length < 512 →
    s.inputs =
      [.chunk (encodeStart s.cfg.hdrEndian kindRawBlt x y w h p),
        .chunk (encodeStart s.cfg.hdrEndian kindRawBlt x' y' w' h' p')] →
    (∃ t : State, Host.Core.run core 2 s = .next t ∧ t.head = t.tail ∧ t.pending = true ∧
      (t.slot s.head).length.toNat = p.length ∧ t.trace = s.trace) ∧
    ∃ t : State, Host.Core.run core 5 s = .next t ∧ t.Quiescent ∧ t.head = s.head ∧ t.tail = s.tail ∧
      t.dst = s.dst ∧ t.trace = s.trace

/-- 41_ring R152, 42_decoder R161: with no surface attached the wake-up is spent on one `ERR_NO_DST`; the committed Slot
stays where it is and the pipeline is at rest, with nothing to wake it. That the steps happen at once is the model's
choice (log 22). -/
def Obligations.NoSurfaceStrandsTheSlot : Prop :=
  ∀ s : State, s.inputs = [] → s.pending = true → s.running = false → s.dstAttached = false →
    ∃ t : State, Host.Core.run core 2 s = .next t ∧ t.Quiescent ∧ t.head = s.head ∧ t.tail = s.tail ∧
      t.slot0 = s.slot0 ∧ t.slot1 = s.slot1 ∧ t.dst = s.dst ∧ t.trace = s.trace ++ [.errOut .noDst 0#64]

/-! ## The Decoder / Compositor -/

/-- 42_decoder R160: exactly one micro-step is enabled whenever `running` is true, none when it is false, and the phase it
leads to is the table's. Two clauses are the model's choice: that a micro-step which is not enabled answers the refusal
`notEnabled` (log 17; R160 says only that none is enabled), and that a RAW copy granted only part of its bytes by a burst
stays in `RAW` (log 5, one of the granularities R177 allows). -/
def Obligations.OneMicroStepPerPhase : Prop :=
  ∀ s : State,
    (s.running = true → s.cPhase ≠ .idle →
      ∃ i, isMicroStep i = true ∧ (∃ t, exec i s = .next t) ∧
        ∀ j, isMicroStep j = true → (∃ t, exec j s = .next t) → j = i) ∧
    (s.running = false → ∀ i, isMicroStep i = true → exec i s = .refused .notEnabled) ∧
    ∀ i t, isMicroStep i = true → exec i s = .next t →
      (s.cPhase = .check → t.cPhase = .loop ∨ t.cPhase = .idle) ∧
      (s.cPhase = .loop → t.cPhase = .raw ∨ t.cPhase = .rle ∨ t.cPhase = .release ∨ t.cPhase = .idle) ∧
      (s.cPhase = .raw → t.cPhase = .release ∨ (s.burst ≠ none ∧ t.cPhase = .raw)) ∧
      (s.cPhase = .rle → t.cPhase = .rle ∨ t.cPhase = .release) ∧
      (s.cPhase = .release → t.cPhase = .loop) ∧
      s.cPhase ≠ .idle

/-- 42_decoder R161. -/
def Obligations.SurfaceCheck : Prop :=
  ∀ s : State, s.running = true → s.cPhase = .check →
    (s.cAtt = false →
      exec .check s =
        .next { s with trace := s.trace ++ [.errOut .noDst 0#64], running := false, cPhase := .idle }) ∧
    (s.cAtt = true → exec .check s = .next { s with cPhase := .loop })

/-- 42_decoder R162. -/
def Obligations.EmptyRingEndsTheInvocation : Prop :=
  ∀ s : State, s.running = true → s.cPhase = .loop → s.tail = s.head →
    exec .take s = .next { s with running := false, cPhase := .idle }

/-- 42_decoder R163, R164, R165 and R167: the take samples the descriptor of `slot[tail]` and computes the offset, exactly;
a RAW message that exceeds the surface is reported and goes straight to its release. That the model's own records
of the segment in progress and of the holding's races start empty is the model's choice (log 6, log 7). -/
def Obligations.TakeLatchesTheSlot : Prop :=
  ∀ s : State, s.running = true → s.cPhase = .loop → s.tail ≠ s.head →
    ∀ base last : Nat,
      base = ((s.slot s.tail).x.toNat * 16 + (s.slot s.tail).y.toNat * s.cStride.toNat) / 8 →
      last = base + (s.slot s.tail).length.toNat →
      exec .take s =
        .next { s with
          cKind := (s.slot s.tail).kind
          cX := (s.slot s.tail).x
          cY := (s.slot s.tail).y
          cLen := (s.slot s.tail).length
          cBase := base
          rd := 0
          wr := base
          cSeg := none
          races := []
          cPhase :=
            if (s.slot s.tail).kind = .rleBlt then .rle else if last > s.cSize.toNat then .release else .raw
          trace :=
            if (s.slot s.tail).kind = .rawBlt ∧ last > s.cSize.toNat then
              s.trace ++ [.errOut .dstBounds (BitVec.ofNat 64 last)]
            else s.trace }

/-- 42_decoder R168: the RAW copy moves the bytes of the message to increasing addresses from `c_base + rd` on; the end of
the copy leads to the release. `payloadByte` is `PayloadRead` (R170). The clauses for a burst (`min b` of the bytes left, the
copy staying in `RAW`) are the model's choice (log 5) among the granularities R177 allows; `draws` is the model's count of
payload reads (log 26). -/
def Obligations.RawCopyMovesThePayload : Prop :=
  ∀ (s : State) (n : Nat), s.running = true → s.cPhase = .raw →
    s.rd ≤ s.cLen.toNat → s.cBase + s.cLen.toNat ≤ s.cSize.toNat →
    n = (match s.burst with | none => s.cLen.toNat - s.rd | some b => min b (s.cLen.toNat - s.rd)) →
    ∃ t, exec .rawBlt s = .next t ∧
      (∀ k, k < n → Memory.read t.dst (s.cBase + s.rd + k) = some (s.payloadByte (s.rd + k) (s.draws + k))) ∧
      (∀ a, a < s.cBase + s.rd ∨ s.cBase + s.rd + n ≤ a → Memory.read t.dst a = Memory.read s.dst a) ∧
      t.trace = s.trace ++
        (List.range n).map (fun k => .dstWr (s.cBase + s.rd + k) (s.payloadByte (s.rd + k) (s.draws + k))) ∧
      t.rd = s.rd + n ∧
      (t.rd = s.cLen.toNat → t.cPhase = .release) ∧ (t.rd ≠ s.cLen.toNat → t.cPhase = .raw) ∧
      t = { s with dst := t.dst, trace := t.trace, rd := t.rd, cPhase := t.cPhase, draws := t.draws }

/-- 42_decoder R169, R173 and R175: the loop test, the header byte, the optional guard, and the segment that follows. R169
makes one micro-step of the header and its segment: that `RLE_BLT` ends after the header and the guard, and leaves the
segment begun in `cSeg` for the next step, is the model's choice (log 5, log 6); `draws` is its count of payload reads
(log 26). -/
def Obligations.RleStepTestsReadsAndGuards : Prop :=
  ∀ s : State, s.running = true → s.cPhase = .rle → s.cSeg = none →
    (s.cLen.toNat ≤ s.rd → exec .rleBlt s = .next { s with cPhase := .release }) ∧
    (s.rd < s.cLen.toNat → ∀ (h : Byte) (last : Nat), h = s.payloadByte s.rd s.draws →
      last = s.wr + 2 * (h.toNat % 64 + 1) →
      (s.cfg.rleGuard = true ∧ last > s.cSize.toNat →
        exec .rleBlt s =
          .next { s with
            trace := s.trace ++ [.errOut .dstBounds (BitVec.ofNat 64 last)]
            cPhase := .release
            draws := s.draws + 1 }) ∧
      (¬(s.cfg.rleGuard = true ∧ last > s.cSize.toNat) →
        exec .rleBlt s =
          .next { s with cSeg := some { header := h, moved := 0, pixel := none }, draws := s.draws + 1 }))

/-- 42_decoder R171 and R173, for a whole segment and for a resumed one: the bytes are copied verbatim in increasing order,
then the cursors advance by the encoded and the decoded size. The clauses on the granted bytes of a burst are the model's
choice (log 5, under R177), and so is the progress kept in `cSeg` (log 6). A byte outside the surface (20_memory R68) leaves
no known value and is recorded in `faults` (log 11); `draws` counts payload reads (log 26). -/
def Obligations.LiteralSegmentCopies : Prop :=
  ∀ (s : State) (g : Segment) (b : Bool) (c : BitVec 6) (total n : Nat),
    s.running = true → s.cPhase = .rle → s.cSeg = some g → decodeSegment g.header = .segLiteral b c →
    Memory.wf s.dst = true → total = 2 * (c.toNat + 1) → g.moved ≤ total →
    n = (match s.burst with | none => total - g.moved | some k => min k (total - g.moved)) →
    ∃ t, exec (.segLiteral b c) s = .next t ∧
      (∀ k, k < n →
        Memory.read t.dst (s.wr + g.moved + k) =
          if s.wr + g.moved + k < s.cSize.toNat then
            some (s.payloadByte (s.rd + 1 + g.moved + k) (s.draws + k))
          else none) ∧
      (∀ a, a < s.wr + g.moved ∨ s.wr + g.moved + n ≤ a → Memory.read t.dst a = Memory.read s.dst a) ∧
      t.trace = s.trace ++
        (List.range n).map
          (fun k => .dstWr (s.wr + g.moved + k) (s.payloadByte (s.rd + 1 + g.moved + k) (s.draws + k))) ∧
      (g.moved + n = total → t.rd = s.rd + 1 + total ∧ t.wr = s.wr + total ∧ t.cSeg = none) ∧
      (g.moved + n ≠ total → t.rd = s.rd ∧ t.wr = s.wr ∧ t.cSeg = some { g with moved := g.moved + n }) ∧
      t = { s with
        dst := t.dst, trace := t.trace, faults := t.faults, rd := t.rd, wr := t.wr, cSeg := t.cSeg, draws := t.draws }

/-- 42_decoder R172 and R173, for a whole segment and for a resumed one: the two data bytes are read once, before the first
store, and written alternately, the first at the lower address. The clauses on the granted bytes of a burst are the model's
choice (log 5, under R177), and so are the progress and the pixel kept in `cSeg` (log 6). A byte outside the surface
(20_memory R68) leaves no known value and is recorded in `faults` (log 11); `draws` counts payload reads (log 26). -/
def Obligations.RepeatSegmentExpands : Prop :=
  ∀ (s : State) (g : Segment) (b : Bool) (c : BitVec 6) (total n : Nat) (p0 p1 : Byte),
    s.running = true → s.cPhase = .rle → s.cSeg = some g → decodeSegment g.header = .segRepeat b c →
    Memory.wf s.dst = true → total = 2 * (c.toNat + 1) → g.moved ≤ total →
    n = (match s.burst with | none => total - g.moved | some k => min k (total - g.moved)) →
    (p0, p1) =
      (match g.pixel with
        | some p => p
        | none => (s.payloadByte (s.rd + 1) s.draws, s.payloadByte (s.rd + 2) (s.draws + 1))) →
    ∃ t, exec (.segRepeat b c) s = .next t ∧
      (∀ k, k < n →
        Memory.read t.dst (s.wr + g.moved + k) =
          if s.wr + g.moved + k < s.cSize.toNat then some (if (g.moved + k) % 2 = 0 then p0 else p1) else none) ∧
      (∀ a, a < s.wr + g.moved ∨ s.wr + g.moved + n ≤ a → Memory.read t.dst a = Memory.read s.dst a) ∧
      t.trace = s.trace ++
        (List.range n).map (fun k => .dstWr (s.wr + g.moved + k) (if (g.moved + k) % 2 = 0 then p0 else p1)) ∧
      (g.moved + n = total → t.rd = s.rd + 3 ∧ t.wr = s.wr + total ∧ t.cSeg = none) ∧
      (g.moved + n ≠ total →
        t.rd = s.rd ∧ t.wr = s.wr ∧ t.cSeg = some { g with moved := g.moved + n, pixel := some (p0, p1) }) ∧
      t = { s with
        dst := t.dst, trace := t.trace, faults := t.faults, rd := t.rd, wr := t.wr, cSeg := t.cSeg, draws := t.draws }

/-- 42_decoder R177: a copy or a segment that was granted only part of its bytes and is then finished gives what it gives
in one go. The burst is the model's choice of granularity (log 5). -/
def Obligations.PartialMovesAddUpToTheWhole : Prop :=
  ∀ (s : State) (k : Nat) (u : State),
    (s.cPhase = .raw → exec .rawBlt (s.withBurst (some k)) = .next u → u.cPhase = .raw →
      exec .rawBlt (u.withBurst none) = exec .rawBlt (s.withBurst none)) ∧
    (∀ b c, exec (.segLiteral b c) (s.withBurst (some k)) = .next u → u.cSeg ≠ none →
      exec (.segLiteral b c) (u.withBurst none) = exec (.segLiteral b c) (s.withBurst none)) ∧
    (∀ b c, exec (.segRepeat b c) (s.withBurst (some k)) = .next u → u.cSeg ≠ none →
      exec (.segRepeat b c) (u.withBurst none) = exec (.segRepeat b c) (s.withBurst none))

/-- 42_decoder R173: every segment moves `rd` on, so the decoding of a Slot ends: from between two segments, with no input,
the release is reached within two steps for each three bytes of the length and one more. Two steps for a segment are the
model's split of R169's micro-step (log 5); that a step happens with no input is log 22. -/
def Obligations.RleDecodingEnds : Prop :=
  ∀ s : State, s.inputs = [] → s.running = true → s.cPhase = .rle → s.cSeg = none →
    ∃ (n : Nat) (t : State), n ≤ 2 * ((s.cLen.toNat + 2) / 3) + 1 ∧ Host.Core.run core n s = .next t ∧
      t.cPhase = .release ∧ t.tail = s.tail

/-- 42_decoder R180: a well-formed payload of segments, all of whose writes are inside the surface, is expanded to the
concatenation of its segments' expansions, at `c_base` on, in order, and nowhere else. The number of steps,
two for a segment and one more, is the model's split (log 5) with no input (log 22); the empty `cSeg` and `races` of the
start are the model's own records (log 6, log 7). -/
def Obligations.RlePayloadExpandsToItsSegments : Prop :=
  ∀ (s : State) (gs : List RleSegment) (pay out : List Byte),
    (∀ g ∈ gs, g.wf = true) → pay = gs.flatMap RleSegment.encoded → out = gs.flatMap RleSegment.expanded →
    s.Inv → s.inputs = [] → s.running = true → s.cPhase = .rle → s.cSeg = none → s.races = [] →
    s.rd = 0 → s.wr = s.cBase → s.cLen.toNat = pay.length →
    (∀ a, a < pay.length → Memory.read (s.slot s.tail).payload a = pay[a]?) →
    s.cBase + out.length ≤ s.cSize.toNat →
    ∃ t : State, Host.Core.run core (2 * gs.length + 1) s = .next t ∧ t.cPhase = .release ∧
      t.rd = s.cLen.toNat ∧ t.wr = s.cBase + out.length ∧
      (∀ a, a < out.length → Memory.read t.dst (s.cBase + a) = out[a]?) ∧
      (∀ a, a < s.cBase ∨ s.cBase + out.length ≤ a → Memory.read t.dst a = Memory.read s.dst a) ∧
      t.trace = s.trace ++ dstTransactions s.cBase out ∧ t.faults = s.faults ∧ t.slot0 = s.slot0 ∧ t.slot1 = s.slot1

/-- 42_decoder R181, 60_exceptions R203: a RAW message that exceeds the surface is rejected without a partial write, reported
once, and its Slot is released. That the steps happen with no input is log 22. -/
def Obligations.RejectedRawMessageWritesNothing : Prop :=
  ∀ (s : State) (last : Nat), s.inputs = [] → s.running = true → s.cPhase = .loop → s.tail ≠ s.head →
    (s.slot s.tail).kind = .rawBlt →
    last = ((s.slot s.tail).x.toNat * 16 + (s.slot s.tail).y.toNat * s.cStride.toNat) / 8 +
      (s.slot s.tail).length.toNat →
    last > s.cSize.toNat →
    ∃ t : State, Host.Core.run core 2 s = .next t ∧ t.tail.val = (s.tail.val + 1) % 2 ∧ t.cPhase = .loop ∧
      t.dst = s.dst ∧ t.trace = s.trace ++ [.errOut .dstBounds (BitVec.ofNat 64 last)] ∧ t.faults = s.faults

/-- The whole path of a short RAW message (40_reassembler R112, 41_ring R146, 42_decoder R161 to R168, 41_ring R149; the
spec's Scenario A in general): delivered to a pipeline at rest, it is on the surface at its offset seven steps later, and the
pipeline is at rest again. The number of steps is the model's (log 5, log 22). -/
def Obligations.ShortRawMessageReachesTheSurface : Prop :=
  ∀ (s : State) (x y w h : Half) (p : List Byte) (base : Nat),
    s.Inv → s.pending = false → s.running = false → s.tail = s.head → s.dstAttached = true →
    9 + p.length < 512 → base = (x.toNat * 16 + y.toNat * s.dstStrideBits.toNat) / 8 →
    base + p.length ≤ s.dstSize.toNat →
    s.inputs = [.chunk (encodeStart s.cfg.hdrEndian kindRawBlt x y w h p)] →
    ∃ t : State, Host.Core.run core 7 s = .next t ∧ t.Quiescent ∧ t.head.val = (s.head.val + 1) % 2 ∧ t.tail = t.head ∧
      (∀ a, a < p.length → Memory.read t.dst (base + a) = p[a]?) ∧
      (∀ a, a < base ∨ base + p.length ≤ a → Memory.read t.dst a = Memory.read s.dst a) ∧
      t.trace = s.trace ++ dstTransactions base p ∧ t.faults = s.faults

/-! ## Memory, ownership and races -/

/-- 42_decoder R170: without a race a payload read below `CAPACITY` is the stored byte, message or stale. -/
def Obligations.PayloadReadGivesTheStoredByte : Prop :=
  ∀ (s : State) (a d : Nat) (b : Byte), a < s.cfg.capacity.bytes →
    (∀ r ∈ s.races, a < r.base ∨ r.base + r.count ≤ a) →
    Memory.read (s.slot s.tail).payload a = some b → s.payloadByte a d = b

/-- 20_memory R65: when the producer writes the Slot the consumer holds, each later payload read of the holding gives the
byte after that write or the byte before it; and the sampled descriptor and the cursors are not affected. R65 speaks of one
write: that a read may also give what an earlier race of the same holding admits is the model's reading (log 7). -/
def Obligations.SlotRaceGivesOldOrNew : Prop :=
  ∀ (s : State) (i : Instr) (t : State), isChunkForm i = true → s.holds = true → s.head = s.tail →
    exec i s = .next t →
    (∀ a d, a < s.cfg.capacity.bytes →
      t.payloadByte a d = storedByte s.tail (t.slot s.tail).payload a ∨
        t.payloadByte a d = storedByte s.tail (s.slot s.tail).payload a ∨
        t.payloadByte a d ∈ s.raceValues a) ∧
    t.cKind = s.cKind ∧ t.cX = s.cX ∧ t.cY = s.cY ∧ t.cLen = s.cLen ∧ t.cBase = s.cBase ∧ t.rd = s.rd ∧ t.wr = s.wr ∧
    t.cPhase = s.cPhase ∧ t.tail = s.tail

/-- 10_state R39: a chunk changes nothing of any Slot but `slot[head]`, and nothing of the consumer's, of the surface and of
the inputs; `races` is the model's record of Slot races (log 7). -/
def Obligations.ProducerTouchesOnlyItsOwn : Prop :=
  ∀ (s : State) (i : Instr) (t : State), isChunkForm i = true → exec i s = .next t →
    (∀ j, j ≠ s.head → t.slot j = s.slot j) ∧
    t = { s with
      head := t.head, slot0 := t.slot0, slot1 := t.slot1, drop := t.drop, pending := t.pending, trace := t.trace,
      races := t.races }

/-- 10_state R39: the consumer writes neither Slot, nor `head`, nor `drop`, nor the wake-up bit, nor the surface inputs. -/
def Obligations.ConsumerLeavesTheProducerAlone : Prop :=
  ∀ (s : State) (i : Instr) (t : State), isMicroStep i = true → exec i s = .next t →
    t.slot0 = s.slot0 ∧ t.slot1 = s.slot1 ∧ t.head = s.head ∧ t.drop = s.drop ∧ t.pending = s.pending ∧
      t.dstAttached = s.dstAttached ∧ t.dstSize = s.dstSize ∧ t.dstStrideBits = s.dstStrideBits ∧
      t.cAtt = s.cAtt ∧ t.cSize = s.cSize ∧ t.cStride = s.cStride ∧ t.cfg = s.cfg ∧ t.inputs = s.inputs

/-- 10_state R22, R23, R26 to R28, R39 and 41_ring R145: over all steps, who may change each shared field. That the surface
inputs change only while not running is 10_state R34 and 70 R241, a duty of the platform, which the model enforces by
refusing such a step (log 15, DESIGN CHOICE). -/
def Obligations.EachSharedFieldHasItsWriters : Prop :=
  ∀ s t : State, step s = .next t →
    (t.head ≠ s.head ∨ t.slot0 ≠ s.slot0 ∨ t.slot1 ≠ s.slot1 ∨ t.drop ≠ s.drop →
      s.inputs.head? = some .reset ∨ ∃ bytes, s.inputs.head? = some (.chunk bytes)) ∧
    (t.tail ≠ s.tail →
      s.inputs.head? = some .reset ∨ (s.running = true ∧ s.cPhase = .release ∧ t.cPhase = .loop)) ∧
    (s.pending = false → t.pending = true → ∃ bytes, s.inputs.head? = some (.chunk bytes)) ∧
    (s.pending = true → t.pending = false →
      s.inputs.head? = some .reset ∨ (s.running = false ∧ t.running = true ∧ t.cPhase = .check)) ∧
    (s.running = false → t.running = true → s.pending = true ∧ t.pending = false) ∧
    (t.dstAttached ≠ s.dstAttached ∨ t.dstSize ≠ s.dstSize ∨ t.dstStrideBits ≠ s.dstStrideBits →
      s.running = false ∧ t.running = false) ∧
    t.cfg = s.cfg

/-- 10_state R35, R42 and 20_memory R53: the history only grows, and a surface byte changes only where a `DST_WR` was
issued. -/
def Obligations.SurfaceChangesOnlyByRecordedWrites : Prop :=
  ∀ s t : State, step s = .next t →
    ∃ new, t.trace = s.trace ++ new ∧
      ∀ a, (∀ x ∈ new, Transaction.writes a x = false) → Memory.read t.dst a = Memory.read s.dst a

/-- 20_memory R68: every write at or above `c_size` is recorded as `DstOutOfSurface`, none inside is, and the location
written is given no value (log 11). -/
def Obligations.OutsideWritesAreRecorded : Prop :=
  ∀ (s : State) (i : Instr) (t : State), exec i s = .next t →
    ∃ new, t.trace = s.trace ++ new ∧
      t.faults = s.faults ++ new.filterMap (Transaction.fault s.cSize.toNat) ∧
      (Memory.wf s.dst = true → ∀ a b, Transaction.dstWr a b ∈ new → s.cSize.toNat ≤ a → Memory.read t.dst a = none)

/-- 20_memory R68, 42_decoder R168 and R175: only the RLE path without the guard ever writes outside the surface. -/
def Obligations.OnlyUnguardedRleLeavesTheSurface : Prop :=
  ∀ s t : State, s.Inv → step s = .next t → t.faults ≠ s.faults →
    s.cfg.rleGuard = false ∧ s.running = true ∧ s.cPhase = .rle ∧ s.cSeg ≠ none

/-- 42_decoder R166 and R174: the cursors fit the widths the spec gives, and a Slot overreads by at most 128 bytes. -/
def Obligations.CursorsStayInTheirBounds : Prop :=
  ∀ s : State, s.Inv → s.holds = true →
    s.cBase < 2 ^ 46 ∧ s.cBase + s.cLen.toNat < 2 ^ 47 ∧
    (s.cPhase = .raw ∨ s.cPhase = .rle → s.rd ≤ s.cLen.toNat + 128 ∧ s.rd < 2 ^ 33) ∧
    (s.cPhase = .rle → s.wr < 2 ^ 47)

/-! ## Errors -/

/-- 60_exceptions R200: the codes. -/
def Obligations.ErrorCodes : Prop :=
  ErrorEvent.oversize.code = 1 ∧ ErrorEvent.unknownKind.code = 2 ∧ ErrorEvent.dstBounds.code = 3 ∧
    ErrorEvent.noDst.code = 4 ∧ ErrorEvent.runtStart.code = 5

/-- 60_exceptions R205 with 93 U8 and U9: no step ends in a fault, and the only steps the model gives no meaning are a
chunk the port cannot carry (log 16) and a surface change during an invocation (log 15). That a write outside the surface is
recorded and no fault is log 11. -/
def Obligations.NoErrorIsFatal : Prop :=
  ∀ s : State,
    (∃ t, step s = .next t) ∨
    (step s = .refused .chunkTooLong ∧ ∃ bytes, s.inputs.head? = some (.chunk bytes) ∧ 512 < bytes.length) ∨
    (step s = .refused .surfaceMovedWhileRunning ∧ s.running = true ∧
      ∃ att size stride, s.inputs.head? = some (.surface att size stride))

/-- 60_exceptions R209: a step raises at most one error event. -/
def Obligations.AtMostOneErrorPerStep : Prop :=
  ∀ s t : State, step s = .next t →
    ∃ new, t.trace = s.trace ++ new ∧ (new.filter Transaction.isErrOut).length ≤ 1

/-! ## Reset, the invariant and the step -/

/-- 70 R230, R232: `reset`, from any state: the registers to which 10_state R40 gives a value have it, the payload memories,
the surface, the inputs of the environment and the history stay, and no event is raised. What the consumer's latches and
cursors hold is not stated. That the model's own records `cSeg` and `races` are emptied is the model's reading (log 14). -/
def Obligations.ResetRestoresTheTable : Prop :=
  ∀ s : State, ∃ t, exec .reset s = .next t ∧
    t.slot0 = { kind := .rawBlt, x := 0#16, y := 0#16, width := 0#16, height := 0#16, length := 0#32,
                payload := s.slot0.payload } ∧
    t.slot1 = { kind := .rawBlt, x := 0#16, y := 0#16, width := 0#16, height := 0#16, length := 0#32,
                payload := s.slot1.payload } ∧
    t = { s with
      head := 0, tail := 0, slot0 := t.slot0, slot1 := t.slot1, drop := false, pending := false, running := false,
      cPhase := .idle, cAtt := t.cAtt, cSize := t.cSize, cStride := t.cStride, cKind := t.cKind, cX := t.cX, cY := t.cY,
      cLen := t.cLen, cBase := t.cBase, rd := t.rd, wr := t.wr, cSeg := none, races := [] }

/-- 10_state R40: the state after power-up and reset, whatever the parameters. -/
def Obligations.PowerUpState : Prop :=
  (∀ cfg : Config, ∀ s : State, s = State.powerUp cfg →
    s.cfg = cfg ∧ s.head = 0 ∧ s.tail = 0 ∧ s.drop = false ∧ s.pending = false ∧ s.running = false ∧ s.cPhase = .idle ∧
      ∀ i, (s.slot i).kind = .rawBlt ∧ (s.slot i).x = 0#16 ∧ (s.slot i).y = 0#16 ∧ (s.slot i).width = 0#16 ∧
        (s.slot i).height = 0#16 ∧ (s.slot i).length = 0#32) ∧
    State.reset = State.powerUp State.reset.cfg

/-- The state after reset has the invariant, whatever the parameters. -/
def Obligations.ResetHasTheInvariant : Prop :=
  (∀ cfg : Config, (State.powerUp cfg).Inv) ∧ State.reset.Inv

/-- Every step from a state with the invariant leads to one with it: canonical memories inside their bounds, `IDLE` exactly
when not running, the RAW bounds check standing, the RLE cursors' bounds (10_state R30, 20_memory R52, 42_decoder R165 to
R167, R173, R174). -/
def Obligations.EveryStepKeepsTheInvariant : Prop :=
  ∀ s t : State, s.Inv → step s = .next t → t.Inv

/-- 40_reassembler R110: a step with a delivered chunk is `exec` of the form it decodes to, the chunk consumed
(the inputs as a list are log 3). -/
def Obligations.StepRunsTheDecodedChunk : Prop :=
  ∀ (s : State) (bytes : List Byte) (rest : List Input) (i : Instr),
    s.inputs = .chunk bytes :: rest → decode s.cfg.hdrEndian .chunk bytes = .ok i →
    step s = exec i (s.withInputs rest)

/-- 42_decoder R160, 41_ring R146: with no input, or at a turn of the internal agents, a step is `exec` of the operation that
`running`, `c_phase` and `pending` select; in phase `RLE` the operation within a segment is decoded from its header. The
inputs as a list are log 3, the burst and the split of a segment log 5, the segment in progress log 6. -/
def Obligations.StepRunsTheSelectedOperation : Prop :=
  ∀ (s : State) (b : Option Nat) (rest : List Input) (i : Instr),
    (s.inputs = [] ∧ b = none ∧ rest = [] ∨ s.inputs = .turn b :: rest) →
    (s.running = false ∧ s.pending = true ∧ i = .invoke ∨
      s.running = true ∧
        (s.cPhase = .check ∧ i = .check ∨ s.cPhase = .loop ∧ i = .take ∨ s.cPhase = .raw ∧ i = .rawBlt ∨
          s.cPhase = .rle ∧ s.cSeg = none ∧ i = .rleBlt ∨
          (s.cPhase = .rle ∧ ∃ g, s.cSeg = some g ∧ decode s.cfg.hdrEndian .segment [g.header] = .ok i) ∨
          s.cPhase = .release ∧ i = .release)) →
    step s = exec i ((s.withInputs rest).withBurst b)

/-- 60_exceptions R208 and R215, 70 R230: what the other inputs do: a surface change sets the inputs and starts nothing, a
reset resets, and a turn with nothing enabled only passes (the inputs as a list are log 3). -/
def Obligations.StepOfTheOtherInputs : Prop :=
  ∀ (s : State) (rest : List Input),
    (∀ att size stride, s.inputs = .surface att size stride :: rest → s.running = false →
      step s = .next { s with inputs := rest, dstAttached := att, dstSize := size, dstStrideBits := stride }) ∧
    (s.inputs = .reset :: rest → step s = exec .reset (s.withInputs rest)) ∧
    (∀ b, s.inputs = .turn b :: rest → s.running = false → s.pending = false →
      step s = .next (s.withInputs rest))

/-- 70 R244, 60_exceptions R215: in a quiescent state nothing changes. -/
def Obligations.QuiescentStatesDoNotMove : Prop :=
  ∀ s : State, s.Quiescent → step s = .next s

/-- 70 R244 under 41_ring R153: with no further input the pipeline comes to rest. R153's weak fairness is here the
model's choice that an enabled step happens at once (log 22). -/
def Obligations.InputFreeRunsEndQuiescent : Prop :=
  ∀ s : State, s.Inv → s.inputs = [] → ∃ (n : Nat) (t : State), Host.Core.run core n s = .next t ∧ t.Quiescent
end

