-- ==== Sys2Proof/Laws/State.lean ====
section
/-! SUPPORT. One lemma per field per named update of the state, true by definition, and the Slot accessor under each
update. -/

namespace Sys2Proof.Machine

/-! ### withSurface -/

@[simp] theorem State.withSurface_cfg (s : State) (att : Bool) (size stride : Word) : (s.withSurface att size stride).cfg = s.cfg := rfl
@[simp] theorem State.withSurface_head (s : State) (att : Bool) (size stride : Word) : (s.withSurface att size stride).head = s.head := rfl
@[simp] theorem State.withSurface_tail (s : State) (att : Bool) (size stride : Word) : (s.withSurface att size stride).tail = s.tail := rfl
@[simp] theorem State.withSurface_slot0 (s : State) (att : Bool) (size stride : Word) : (s.withSurface att size stride).slot0 = s.slot0 := rfl
@[simp] theorem State.withSurface_slot1 (s : State) (att : Bool) (size stride : Word) : (s.withSurface att size stride).slot1 = s.slot1 := rfl
@[simp] theorem State.withSurface_drop (s : State) (att : Bool) (size stride : Word) : (s.withSurface att size stride).drop = s.drop := rfl
@[simp] theorem State.withSurface_pending (s : State) (att : Bool) (size stride : Word) : (s.withSurface att size stride).pending = s.pending := rfl
@[simp] theorem State.withSurface_running (s : State) (att : Bool) (size stride : Word) : (s.withSurface att size stride).running = s.running := rfl
@[simp] theorem State.withSurface_cPhase (s : State) (att : Bool) (size stride : Word) : (s.withSurface att size stride).cPhase = s.cPhase := rfl
@[simp] theorem State.withSurface_cAtt (s : State) (att : Bool) (size stride : Word) : (s.withSurface att size stride).cAtt = s.cAtt := rfl
@[simp] theorem State.withSurface_cSize (s : State) (att : Bool) (size stride : Word) : (s.withSurface att size stride).cSize = s.cSize := rfl
@[simp] theorem State.withSurface_cStride (s : State) (att : Bool) (size stride : Word) : (s.withSurface att size stride).cStride = s.cStride := rfl
@[simp] theorem State.withSurface_cKind (s : State) (att : Bool) (size stride : Word) : (s.withSurface att size stride).cKind = s.cKind := rfl
@[simp] theorem State.withSurface_cX (s : State) (att : Bool) (size stride : Word) : (s.withSurface att size stride).cX = s.cX := rfl
@[simp] theorem State.withSurface_cY (s : State) (att : Bool) (size stride : Word) : (s.withSurface att size stride).cY = s.cY := rfl
@[simp] theorem State.withSurface_cLen (s : State) (att : Bool) (size stride : Word) : (s.withSurface att size stride).cLen = s.cLen := rfl
@[simp] theorem State.withSurface_cBase (s : State) (att : Bool) (size stride : Word) : (s.withSurface att size stride).cBase = s.cBase := rfl
@[simp] theorem State.withSurface_rd (s : State) (att : Bool) (size stride : Word) : (s.withSurface att size stride).rd = s.rd := rfl
@[simp] theorem State.withSurface_wr (s : State) (att : Bool) (size stride : Word) : (s.withSurface att size stride).wr = s.wr := rfl
@[simp] theorem State.withSurface_dstAttached (s : State) (att : Bool) (size stride : Word) : (s.withSurface att size stride).dstAttached = att := rfl
@[simp] theorem State.withSurface_dstSize (s : State) (att : Bool) (size stride : Word) : (s.withSurface att size stride).dstSize = size := rfl
@[simp] theorem State.withSurface_dstStrideBits (s : State) (att : Bool) (size stride : Word) : (s.withSurface att size stride).dstStrideBits = stride := rfl
@[simp] theorem State.withSurface_dst (s : State) (att : Bool) (size stride : Word) : (s.withSurface att size stride).dst = s.dst := rfl
@[simp] theorem State.withSurface_trace (s : State) (att : Bool) (size stride : Word) : (s.withSurface att size stride).trace = s.trace := rfl
@[simp] theorem State.withSurface_inputs (s : State) (att : Bool) (size stride : Word) : (s.withSurface att size stride).inputs = s.inputs := rfl
@[simp] theorem State.withSurface_cSeg (s : State) (att : Bool) (size stride : Word) : (s.withSurface att size stride).cSeg = s.cSeg := rfl
@[simp] theorem State.withSurface_races (s : State) (att : Bool) (size stride : Word) : (s.withSurface att size stride).races = s.races := rfl
@[simp] theorem State.withSurface_faults (s : State) (att : Bool) (size stride : Word) : (s.withSurface att size stride).faults = s.faults := rfl
@[simp] theorem State.withSurface_burst (s : State) (att : Bool) (size stride : Word) : (s.withSurface att size stride).burst = s.burst := rfl
@[simp] theorem State.withSurface_draws (s : State) (att : Bool) (size stride : Word) : (s.withSurface att size stride).draws = s.draws := rfl
@[simp] theorem State.withSurface_slot (s : State) (att : Bool) (size stride : Word) (j : SlotIdx) : (s.withSurface att size stride).slot j = s.slot j := rfl


/-! ### withInputs -/

@[simp] theorem State.withInputs_cfg (s : State) (l : List Input) : (s.withInputs l).cfg = s.cfg := rfl
@[simp] theorem State.withInputs_head (s : State) (l : List Input) : (s.withInputs l).head = s.head := rfl
@[simp] theorem State.withInputs_tail (s : State) (l : List Input) : (s.withInputs l).tail = s.tail := rfl
@[simp] theorem State.withInputs_slot0 (s : State) (l : List Input) : (s.withInputs l).slot0 = s.slot0 := rfl
@[simp] theorem State.withInputs_slot1 (s : State) (l : List Input) : (s.withInputs l).slot1 = s.slot1 := rfl
@[simp] theorem State.withInputs_drop (s : State) (l : List Input) : (s.withInputs l).drop = s.drop := rfl
@[simp] theorem State.withInputs_pending (s : State) (l : List Input) : (s.withInputs l).pending = s.pending := rfl
@[simp] theorem State.withInputs_running (s : State) (l : List Input) : (s.withInputs l).running = s.running := rfl
@[simp] theorem State.withInputs_cPhase (s : State) (l : List Input) : (s.withInputs l).cPhase = s.cPhase := rfl
@[simp] theorem State.withInputs_cAtt (s : State) (l : List Input) : (s.withInputs l).cAtt = s.cAtt := rfl
@[simp] theorem State.withInputs_cSize (s : State) (l : List Input) : (s.withInputs l).cSize = s.cSize := rfl
@[simp] theorem State.withInputs_cStride (s : State) (l : List Input) : (s.withInputs l).cStride = s.cStride := rfl
@[simp] theorem State.withInputs_cKind (s : State) (l : List Input) : (s.withInputs l).cKind = s.cKind := rfl
@[simp] theorem State.withInputs_cX (s : State) (l : List Input) : (s.withInputs l).cX = s.cX := rfl
@[simp] theorem State.withInputs_cY (s : State) (l : List Input) : (s.withInputs l).cY = s.cY := rfl
@[simp] theorem State.withInputs_cLen (s : State) (l : List Input) : (s.withInputs l).cLen = s.cLen := rfl
@[simp] theorem State.withInputs_cBase (s : State) (l : List Input) : (s.withInputs l).cBase = s.cBase := rfl
@[simp] theorem State.withInputs_rd (s : State) (l : List Input) : (s.withInputs l).rd = s.rd := rfl
@[simp] theorem State.withInputs_wr (s : State) (l : List Input) : (s.withInputs l).wr = s.wr := rfl
@[simp] theorem State.withInputs_dstAttached (s : State) (l : List Input) : (s.withInputs l).dstAttached = s.dstAttached := rfl
@[simp] theorem State.withInputs_dstSize (s : State) (l : List Input) : (s.withInputs l).dstSize = s.dstSize := rfl
@[simp] theorem State.withInputs_dstStrideBits (s : State) (l : List Input) : (s.withInputs l).dstStrideBits = s.dstStrideBits := rfl
@[simp] theorem State.withInputs_dst (s : State) (l : List Input) : (s.withInputs l).dst = s.dst := rfl
@[simp] theorem State.withInputs_trace (s : State) (l : List Input) : (s.withInputs l).trace = s.trace := rfl
@[simp] theorem State.withInputs_inputs (s : State) (l : List Input) : (s.withInputs l).inputs = l := rfl
@[simp] theorem State.withInputs_cSeg (s : State) (l : List Input) : (s.withInputs l).cSeg = s.cSeg := rfl
@[simp] theorem State.withInputs_races (s : State) (l : List Input) : (s.withInputs l).races = s.races := rfl
@[simp] theorem State.withInputs_faults (s : State) (l : List Input) : (s.withInputs l).faults = s.faults := rfl
@[simp] theorem State.withInputs_burst (s : State) (l : List Input) : (s.withInputs l).burst = s.burst := rfl
@[simp] theorem State.withInputs_draws (s : State) (l : List Input) : (s.withInputs l).draws = s.draws := rfl
@[simp] theorem State.withInputs_slot (s : State) (l : List Input) (j : SlotIdx) : (s.withInputs l).slot j = s.slot j := rfl


/-! ### withBurst -/

@[simp] theorem State.withBurst_cfg (s : State) (b : Option Nat) : (s.withBurst b).cfg = s.cfg := rfl
@[simp] theorem State.withBurst_head (s : State) (b : Option Nat) : (s.withBurst b).head = s.head := rfl
@[simp] theorem State.withBurst_tail (s : State) (b : Option Nat) : (s.withBurst b).tail = s.tail := rfl
@[simp] theorem State.withBurst_slot0 (s : State) (b : Option Nat) : (s.withBurst b).slot0 = s.slot0 := rfl
@[simp] theorem State.withBurst_slot1 (s : State) (b : Option Nat) : (s.withBurst b).slot1 = s.slot1 := rfl
@[simp] theorem State.withBurst_drop (s : State) (b : Option Nat) : (s.withBurst b).drop = s.drop := rfl
@[simp] theorem State.withBurst_pending (s : State) (b : Option Nat) : (s.withBurst b).pending = s.pending := rfl
@[simp] theorem State.withBurst_running (s : State) (b : Option Nat) : (s.withBurst b).running = s.running := rfl
@[simp] theorem State.withBurst_cPhase (s : State) (b : Option Nat) : (s.withBurst b).cPhase = s.cPhase := rfl
@[simp] theorem State.withBurst_cAtt (s : State) (b : Option Nat) : (s.withBurst b).cAtt = s.cAtt := rfl
@[simp] theorem State.withBurst_cSize (s : State) (b : Option Nat) : (s.withBurst b).cSize = s.cSize := rfl
@[simp] theorem State.withBurst_cStride (s : State) (b : Option Nat) : (s.withBurst b).cStride = s.cStride := rfl
@[simp] theorem State.withBurst_cKind (s : State) (b : Option Nat) : (s.withBurst b).cKind = s.cKind := rfl
@[simp] theorem State.withBurst_cX (s : State) (b : Option Nat) : (s.withBurst b).cX = s.cX := rfl
@[simp] theorem State.withBurst_cY (s : State) (b : Option Nat) : (s.withBurst b).cY = s.cY := rfl
@[simp] theorem State.withBurst_cLen (s : State) (b : Option Nat) : (s.withBurst b).cLen = s.cLen := rfl
@[simp] theorem State.withBurst_cBase (s : State) (b : Option Nat) : (s.withBurst b).cBase = s.cBase := rfl
@[simp] theorem State.withBurst_rd (s : State) (b : Option Nat) : (s.withBurst b).rd = s.rd := rfl
@[simp] theorem State.withBurst_wr (s : State) (b : Option Nat) : (s.withBurst b).wr = s.wr := rfl
@[simp] theorem State.withBurst_dstAttached (s : State) (b : Option Nat) : (s.withBurst b).dstAttached = s.dstAttached := rfl
@[simp] theorem State.withBurst_dstSize (s : State) (b : Option Nat) : (s.withBurst b).dstSize = s.dstSize := rfl
@[simp] theorem State.withBurst_dstStrideBits (s : State) (b : Option Nat) : (s.withBurst b).dstStrideBits = s.dstStrideBits := rfl
@[simp] theorem State.withBurst_dst (s : State) (b : Option Nat) : (s.withBurst b).dst = s.dst := rfl
@[simp] theorem State.withBurst_trace (s : State) (b : Option Nat) : (s.withBurst b).trace = s.trace := rfl
@[simp] theorem State.withBurst_inputs (s : State) (b : Option Nat) : (s.withBurst b).inputs = s.inputs := rfl
@[simp] theorem State.withBurst_cSeg (s : State) (b : Option Nat) : (s.withBurst b).cSeg = s.cSeg := rfl
@[simp] theorem State.withBurst_races (s : State) (b : Option Nat) : (s.withBurst b).races = s.races := rfl
@[simp] theorem State.withBurst_faults (s : State) (b : Option Nat) : (s.withBurst b).faults = s.faults := rfl
@[simp] theorem State.withBurst_burst (s : State) (b : Option Nat) : (s.withBurst b).burst = b := rfl
@[simp] theorem State.withBurst_draws (s : State) (b : Option Nat) : (s.withBurst b).draws = s.draws := rfl
@[simp] theorem State.withBurst_slot (s : State) (b : Option Nat) (j : SlotIdx) : (s.withBurst b).slot j = s.slot j := rfl


/-! ### setSlot -/

@[simp] theorem State.setSlot_cfg (s : State) (i : SlotIdx) (v : Slot) : (s.setSlot i v).cfg = s.cfg := rfl
@[simp] theorem State.setSlot_head (s : State) (i : SlotIdx) (v : Slot) : (s.setSlot i v).head = s.head := rfl
@[simp] theorem State.setSlot_tail (s : State) (i : SlotIdx) (v : Slot) : (s.setSlot i v).tail = s.tail := rfl
@[simp] theorem State.setSlot_slot0 (s : State) (i : SlotIdx) (v : Slot) : (s.setSlot i v).slot0 = if i = 0 then v else s.slot0 := rfl
@[simp] theorem State.setSlot_slot1 (s : State) (i : SlotIdx) (v : Slot) : (s.setSlot i v).slot1 = if i = 0 then s.slot1 else v := rfl
@[simp] theorem State.setSlot_drop (s : State) (i : SlotIdx) (v : Slot) : (s.setSlot i v).drop = s.drop := rfl
@[simp] theorem State.setSlot_pending (s : State) (i : SlotIdx) (v : Slot) : (s.setSlot i v).pending = s.pending := rfl
@[simp] theorem State.setSlot_running (s : State) (i : SlotIdx) (v : Slot) : (s.setSlot i v).running = s.running := rfl
@[simp] theorem State.setSlot_cPhase (s : State) (i : SlotIdx) (v : Slot) : (s.setSlot i v).cPhase = s.cPhase := rfl
@[simp] theorem State.setSlot_cAtt (s : State) (i : SlotIdx) (v : Slot) : (s.setSlot i v).cAtt = s.cAtt := rfl
@[simp] theorem State.setSlot_cSize (s : State) (i : SlotIdx) (v : Slot) : (s.setSlot i v).cSize = s.cSize := rfl
@[simp] theorem State.setSlot_cStride (s : State) (i : SlotIdx) (v : Slot) : (s.setSlot i v).cStride = s.cStride := rfl
@[simp] theorem State.setSlot_cKind (s : State) (i : SlotIdx) (v : Slot) : (s.setSlot i v).cKind = s.cKind := rfl
@[simp] theorem State.setSlot_cX (s : State) (i : SlotIdx) (v : Slot) : (s.setSlot i v).cX = s.cX := rfl
@[simp] theorem State.setSlot_cY (s : State) (i : SlotIdx) (v : Slot) : (s.setSlot i v).cY = s.cY := rfl
@[simp] theorem State.setSlot_cLen (s : State) (i : SlotIdx) (v : Slot) : (s.setSlot i v).cLen = s.cLen := rfl
@[simp] theorem State.setSlot_cBase (s : State) (i : SlotIdx) (v : Slot) : (s.setSlot i v).cBase = s.cBase := rfl
@[simp] theorem State.setSlot_rd (s : State) (i : SlotIdx) (v : Slot) : (s.setSlot i v).rd = s.rd := rfl
@[simp] theorem State.setSlot_wr (s : State) (i : SlotIdx) (v : Slot) : (s.setSlot i v).wr = s.wr := rfl
@[simp] theorem State.setSlot_dstAttached (s : State) (i : SlotIdx) (v : Slot) : (s.setSlot i v).dstAttached = s.dstAttached := rfl
@[simp] theorem State.setSlot_dstSize (s : State) (i : SlotIdx) (v : Slot) : (s.setSlot i v).dstSize = s.dstSize := rfl
@[simp] theorem State.setSlot_dstStrideBits (s : State) (i : SlotIdx) (v : Slot) : (s.setSlot i v).dstStrideBits = s.dstStrideBits := rfl
@[simp] theorem State.setSlot_dst (s : State) (i : SlotIdx) (v : Slot) : (s.setSlot i v).dst = s.dst := rfl
@[simp] theorem State.setSlot_trace (s : State) (i : SlotIdx) (v : Slot) : (s.setSlot i v).trace = s.trace := rfl
@[simp] theorem State.setSlot_inputs (s : State) (i : SlotIdx) (v : Slot) : (s.setSlot i v).inputs = s.inputs := rfl
@[simp] theorem State.setSlot_cSeg (s : State) (i : SlotIdx) (v : Slot) : (s.setSlot i v).cSeg = s.cSeg := rfl
@[simp] theorem State.setSlot_races (s : State) (i : SlotIdx) (v : Slot) : (s.setSlot i v).races = s.races := rfl
@[simp] theorem State.setSlot_faults (s : State) (i : SlotIdx) (v : Slot) : (s.setSlot i v).faults = s.faults := rfl
@[simp] theorem State.setSlot_burst (s : State) (i : SlotIdx) (v : Slot) : (s.setSlot i v).burst = s.burst := rfl
@[simp] theorem State.setSlot_draws (s : State) (i : SlotIdx) (v : Slot) : (s.setSlot i v).draws = s.draws := rfl


/-! ### raise -/

@[simp] theorem State.raise_cfg (s : State) (e : ErrorEvent) (w : Nat) : (s.raise e w).cfg = s.cfg := rfl
@[simp] theorem State.raise_head (s : State) (e : ErrorEvent) (w : Nat) : (s.raise e w).head = s.head := rfl
@[simp] theorem State.raise_tail (s : State) (e : ErrorEvent) (w : Nat) : (s.raise e w).tail = s.tail := rfl
@[simp] theorem State.raise_slot0 (s : State) (e : ErrorEvent) (w : Nat) : (s.raise e w).slot0 = s.slot0 := rfl
@[simp] theorem State.raise_slot1 (s : State) (e : ErrorEvent) (w : Nat) : (s.raise e w).slot1 = s.slot1 := rfl
@[simp] theorem State.raise_drop (s : State) (e : ErrorEvent) (w : Nat) : (s.raise e w).drop = s.drop := rfl
@[simp] theorem State.raise_pending (s : State) (e : ErrorEvent) (w : Nat) : (s.raise e w).pending = s.pending := rfl
@[simp] theorem State.raise_running (s : State) (e : ErrorEvent) (w : Nat) : (s.raise e w).running = s.running := rfl
@[simp] theorem State.raise_cPhase (s : State) (e : ErrorEvent) (w : Nat) : (s.raise e w).cPhase = s.cPhase := rfl
@[simp] theorem State.raise_cAtt (s : State) (e : ErrorEvent) (w : Nat) : (s.raise e w).cAtt = s.cAtt := rfl
@[simp] theorem State.raise_cSize (s : State) (e : ErrorEvent) (w : Nat) : (s.raise e w).cSize = s.cSize := rfl
@[simp] theorem State.raise_cStride (s : State) (e : ErrorEvent) (w : Nat) : (s.raise e w).cStride = s.cStride := rfl
@[simp] theorem State.raise_cKind (s : State) (e : ErrorEvent) (w : Nat) : (s.raise e w).cKind = s.cKind := rfl
@[simp] theorem State.raise_cX (s : State) (e : ErrorEvent) (w : Nat) : (s.raise e w).cX = s.cX := rfl
@[simp] theorem State.raise_cY (s : State) (e : ErrorEvent) (w : Nat) : (s.raise e w).cY = s.cY := rfl
@[simp] theorem State.raise_cLen (s : State) (e : ErrorEvent) (w : Nat) : (s.raise e w).cLen = s.cLen := rfl
@[simp] theorem State.raise_cBase (s : State) (e : ErrorEvent) (w : Nat) : (s.raise e w).cBase = s.cBase := rfl
@[simp] theorem State.raise_rd (s : State) (e : ErrorEvent) (w : Nat) : (s.raise e w).rd = s.rd := rfl
@[simp] theorem State.raise_wr (s : State) (e : ErrorEvent) (w : Nat) : (s.raise e w).wr = s.wr := rfl
@[simp] theorem State.raise_dstAttached (s : State) (e : ErrorEvent) (w : Nat) : (s.raise e w).dstAttached = s.dstAttached := rfl
@[simp] theorem State.raise_dstSize (s : State) (e : ErrorEvent) (w : Nat) : (s.raise e w).dstSize = s.dstSize := rfl
@[simp] theorem State.raise_dstStrideBits (s : State) (e : ErrorEvent) (w : Nat) : (s.raise e w).dstStrideBits = s.dstStrideBits := rfl
@[simp] theorem State.raise_dst (s : State) (e : ErrorEvent) (w : Nat) : (s.raise e w).dst = s.dst := rfl
@[simp] theorem State.raise_trace (s : State) (e : ErrorEvent) (w : Nat) : (s.raise e w).trace = s.trace ++ [.errOut e (BitVec.ofNat 64 w)] := rfl
@[simp] theorem State.raise_inputs (s : State) (e : ErrorEvent) (w : Nat) : (s.raise e w).inputs = s.inputs := rfl
@[simp] theorem State.raise_cSeg (s : State) (e : ErrorEvent) (w : Nat) : (s.raise e w).cSeg = s.cSeg := rfl
@[simp] theorem State.raise_races (s : State) (e : ErrorEvent) (w : Nat) : (s.raise e w).races = s.races := rfl
@[simp] theorem State.raise_faults (s : State) (e : ErrorEvent) (w : Nat) : (s.raise e w).faults = s.faults := rfl
@[simp] theorem State.raise_burst (s : State) (e : ErrorEvent) (w : Nat) : (s.raise e w).burst = s.burst := rfl
@[simp] theorem State.raise_draws (s : State) (e : ErrorEvent) (w : Nat) : (s.raise e w).draws = s.draws := rfl
@[simp] theorem State.raise_slot (s : State) (e : ErrorEvent) (w : Nat) (j : SlotIdx) : (s.raise e w).slot j = s.slot j := rfl


/-! ### writeDst -/

@[simp] theorem State.writeDst_cfg (s : State) (a : Nat) (bs : List Byte) : (s.writeDst a bs).cfg = s.cfg := rfl
@[simp] theorem State.writeDst_head (s : State) (a : Nat) (bs : List Byte) : (s.writeDst a bs).head = s.head := rfl
@[simp] theorem State.writeDst_tail (s : State) (a : Nat) (bs : List Byte) : (s.writeDst a bs).tail = s.tail := rfl
@[simp] theorem State.writeDst_slot0 (s : State) (a : Nat) (bs : List Byte) : (s.writeDst a bs).slot0 = s.slot0 := rfl
@[simp] theorem State.writeDst_slot1 (s : State) (a : Nat) (bs : List Byte) : (s.writeDst a bs).slot1 = s.slot1 := rfl
@[simp] theorem State.writeDst_drop (s : State) (a : Nat) (bs : List Byte) : (s.writeDst a bs).drop = s.drop := rfl
@[simp] theorem State.writeDst_pending (s : State) (a : Nat) (bs : List Byte) : (s.writeDst a bs).pending = s.pending := rfl
@[simp] theorem State.writeDst_running (s : State) (a : Nat) (bs : List Byte) : (s.writeDst a bs).running = s.running := rfl
@[simp] theorem State.writeDst_cPhase (s : State) (a : Nat) (bs : List Byte) : (s.writeDst a bs).cPhase = s.cPhase := rfl
@[simp] theorem State.writeDst_cAtt (s : State) (a : Nat) (bs : List Byte) : (s.writeDst a bs).cAtt = s.cAtt := rfl
@[simp] theorem State.writeDst_cSize (s : State) (a : Nat) (bs : List Byte) : (s.writeDst a bs).cSize = s.cSize := rfl
@[simp] theorem State.writeDst_cStride (s : State) (a : Nat) (bs : List Byte) : (s.writeDst a bs).cStride = s.cStride := rfl
@[simp] theorem State.writeDst_cKind (s : State) (a : Nat) (bs : List Byte) : (s.writeDst a bs).cKind = s.cKind := rfl
@[simp] theorem State.writeDst_cX (s : State) (a : Nat) (bs : List Byte) : (s.writeDst a bs).cX = s.cX := rfl
@[simp] theorem State.writeDst_cY (s : State) (a : Nat) (bs : List Byte) : (s.writeDst a bs).cY = s.cY := rfl
@[simp] theorem State.writeDst_cLen (s : State) (a : Nat) (bs : List Byte) : (s.writeDst a bs).cLen = s.cLen := rfl
@[simp] theorem State.writeDst_cBase (s : State) (a : Nat) (bs : List Byte) : (s.writeDst a bs).cBase = s.cBase := rfl
@[simp] theorem State.writeDst_rd (s : State) (a : Nat) (bs : List Byte) : (s.writeDst a bs).rd = s.rd := rfl
@[simp] theorem State.writeDst_wr (s : State) (a : Nat) (bs : List Byte) : (s.writeDst a bs).wr = s.wr := rfl
@[simp] theorem State.writeDst_dstAttached (s : State) (a : Nat) (bs : List Byte) : (s.writeDst a bs).dstAttached = s.dstAttached := rfl
@[simp] theorem State.writeDst_dstSize (s : State) (a : Nat) (bs : List Byte) : (s.writeDst a bs).dstSize = s.dstSize := rfl
@[simp] theorem State.writeDst_dstStrideBits (s : State) (a : Nat) (bs : List Byte) : (s.writeDst a bs).dstStrideBits = s.dstStrideBits := rfl
@[simp] theorem State.writeDst_dst (s : State) (a : Nat) (bs : List Byte) : (s.writeDst a bs).dst = Memory.surfaceWrites s.cSize.toNat s.dst a bs := rfl
@[simp] theorem State.writeDst_trace (s : State) (a : Nat) (bs : List Byte) : (s.writeDst a bs).trace = s.trace ++ dstTransactions a bs := rfl
@[simp] theorem State.writeDst_inputs (s : State) (a : Nat) (bs : List Byte) : (s.writeDst a bs).inputs = s.inputs := rfl
@[simp] theorem State.writeDst_cSeg (s : State) (a : Nat) (bs : List Byte) : (s.writeDst a bs).cSeg = s.cSeg := rfl
@[simp] theorem State.writeDst_races (s : State) (a : Nat) (bs : List Byte) : (s.writeDst a bs).races = s.races := rfl
@[simp] theorem State.writeDst_faults (s : State) (a : Nat) (bs : List Byte) : (s.writeDst a bs).faults = s.faults ++ outOfSurface s.cSize.toNat a bs := rfl
@[simp] theorem State.writeDst_burst (s : State) (a : Nat) (bs : List Byte) : (s.writeDst a bs).burst = s.burst := rfl
@[simp] theorem State.writeDst_draws (s : State) (a : Nat) (bs : List Byte) : (s.writeDst a bs).draws = s.draws := rfl
@[simp] theorem State.writeDst_slot (s : State) (a : Nat) (bs : List Byte) (j : SlotIdx) : (s.writeDst a bs).slot j = s.slot j := rfl


/-! ### countReads -/

@[simp] theorem State.countReads_cfg (s : State) (n : Nat) : (s.countReads n).cfg = s.cfg := rfl
@[simp] theorem State.countReads_head (s : State) (n : Nat) : (s.countReads n).head = s.head := rfl
@[simp] theorem State.countReads_tail (s : State) (n : Nat) : (s.countReads n).tail = s.tail := rfl
@[simp] theorem State.countReads_slot0 (s : State) (n : Nat) : (s.countReads n).slot0 = s.slot0 := rfl
@[simp] theorem State.countReads_slot1 (s : State) (n : Nat) : (s.countReads n).slot1 = s.slot1 := rfl
@[simp] theorem State.countReads_drop (s : State) (n : Nat) : (s.countReads n).drop = s.drop := rfl
@[simp] theorem State.countReads_pending (s : State) (n : Nat) : (s.countReads n).pending = s.pending := rfl
@[simp] theorem State.countReads_running (s : State) (n : Nat) : (s.countReads n).running = s.running := rfl
@[simp] theorem State.countReads_cPhase (s : State) (n : Nat) : (s.countReads n).cPhase = s.cPhase := rfl
@[simp] theorem State.countReads_cAtt (s : State) (n : Nat) : (s.countReads n).cAtt = s.cAtt := rfl
@[simp] theorem State.countReads_cSize (s : State) (n : Nat) : (s.countReads n).cSize = s.cSize := rfl
@[simp] theorem State.countReads_cStride (s : State) (n : Nat) : (s.countReads n).cStride = s.cStride := rfl
@[simp] theorem State.countReads_cKind (s : State) (n : Nat) : (s.countReads n).cKind = s.cKind := rfl
@[simp] theorem State.countReads_cX (s : State) (n : Nat) : (s.countReads n).cX = s.cX := rfl
@[simp] theorem State.countReads_cY (s : State) (n : Nat) : (s.countReads n).cY = s.cY := rfl
@[simp] theorem State.countReads_cLen (s : State) (n : Nat) : (s.countReads n).cLen = s.cLen := rfl
@[simp] theorem State.countReads_cBase (s : State) (n : Nat) : (s.countReads n).cBase = s.cBase := rfl
@[simp] theorem State.countReads_rd (s : State) (n : Nat) : (s.countReads n).rd = s.rd := rfl
@[simp] theorem State.countReads_wr (s : State) (n : Nat) : (s.countReads n).wr = s.wr := rfl
@[simp] theorem State.countReads_dstAttached (s : State) (n : Nat) : (s.countReads n).dstAttached = s.dstAttached := rfl
@[simp] theorem State.countReads_dstSize (s : State) (n : Nat) : (s.countReads n).dstSize = s.dstSize := rfl
@[simp] theorem State.countReads_dstStrideBits (s : State) (n : Nat) : (s.countReads n).dstStrideBits = s.dstStrideBits := rfl
@[simp] theorem State.countReads_dst (s : State) (n : Nat) : (s.countReads n).dst = s.dst := rfl
@[simp] theorem State.countReads_trace (s : State) (n : Nat) : (s.countReads n).trace = s.trace := rfl
@[simp] theorem State.countReads_inputs (s : State) (n : Nat) : (s.countReads n).inputs = s.inputs := rfl
@[simp] theorem State.countReads_cSeg (s : State) (n : Nat) : (s.countReads n).cSeg = s.cSeg := rfl
@[simp] theorem State.countReads_races (s : State) (n : Nat) : (s.countReads n).races = s.races := rfl
@[simp] theorem State.countReads_faults (s : State) (n : Nat) : (s.countReads n).faults = s.faults := rfl
@[simp] theorem State.countReads_burst (s : State) (n : Nat) : (s.countReads n).burst = s.burst := rfl
@[simp] theorem State.countReads_draws (s : State) (n : Nat) : (s.countReads n).draws = s.draws + n := rfl
@[simp] theorem State.countReads_slot (s : State) (n : Nat) (j : SlotIdx) : (s.countReads n).slot j = s.slot j := rfl


/-! ### signalled -/

@[simp] theorem State.signalled_cfg (s : State) : (s.signalled).cfg = s.cfg := rfl
@[simp] theorem State.signalled_head (s : State) : (s.signalled).head = s.head := rfl
@[simp] theorem State.signalled_tail (s : State) : (s.signalled).tail = s.tail := rfl
@[simp] theorem State.signalled_slot0 (s : State) : (s.signalled).slot0 = s.slot0 := rfl
@[simp] theorem State.signalled_slot1 (s : State) : (s.signalled).slot1 = s.slot1 := rfl
@[simp] theorem State.signalled_drop (s : State) : (s.signalled).drop = s.drop := rfl
@[simp] theorem State.signalled_pending (s : State) : (s.signalled).pending = true := rfl
@[simp] theorem State.signalled_running (s : State) : (s.signalled).running = s.running := rfl
@[simp] theorem State.signalled_cPhase (s : State) : (s.signalled).cPhase = s.cPhase := rfl
@[simp] theorem State.signalled_cAtt (s : State) : (s.signalled).cAtt = s.cAtt := rfl
@[simp] theorem State.signalled_cSize (s : State) : (s.signalled).cSize = s.cSize := rfl
@[simp] theorem State.signalled_cStride (s : State) : (s.signalled).cStride = s.cStride := rfl
@[simp] theorem State.signalled_cKind (s : State) : (s.signalled).cKind = s.cKind := rfl
@[simp] theorem State.signalled_cX (s : State) : (s.signalled).cX = s.cX := rfl
@[simp] theorem State.signalled_cY (s : State) : (s.signalled).cY = s.cY := rfl
@[simp] theorem State.signalled_cLen (s : State) : (s.signalled).cLen = s.cLen := rfl
@[simp] theorem State.signalled_cBase (s : State) : (s.signalled).cBase = s.cBase := rfl
@[simp] theorem State.signalled_rd (s : State) : (s.signalled).rd = s.rd := rfl
@[simp] theorem State.signalled_wr (s : State) : (s.signalled).wr = s.wr := rfl
@[simp] theorem State.signalled_dstAttached (s : State) : (s.signalled).dstAttached = s.dstAttached := rfl
@[simp] theorem State.signalled_dstSize (s : State) : (s.signalled).dstSize = s.dstSize := rfl
@[simp] theorem State.signalled_dstStrideBits (s : State) : (s.signalled).dstStrideBits = s.dstStrideBits := rfl
@[simp] theorem State.signalled_dst (s : State) : (s.signalled).dst = s.dst := rfl
@[simp] theorem State.signalled_trace (s : State) : (s.signalled).trace = s.trace := rfl
@[simp] theorem State.signalled_inputs (s : State) : (s.signalled).inputs = s.inputs := rfl
@[simp] theorem State.signalled_cSeg (s : State) : (s.signalled).cSeg = s.cSeg := rfl
@[simp] theorem State.signalled_races (s : State) : (s.signalled).races = s.races := rfl
@[simp] theorem State.signalled_faults (s : State) : (s.signalled).faults = s.faults := rfl
@[simp] theorem State.signalled_burst (s : State) : (s.signalled).burst = s.burst := rfl
@[simp] theorem State.signalled_draws (s : State) : (s.signalled).draws = s.draws := rfl
@[simp] theorem State.signalled_slot (s : State) (j : SlotIdx) : (s.signalled).slot j = s.slot j := rfl


/-! ### committed -/

@[simp] theorem State.committed_cfg (s : State) : (s.committed).cfg = s.cfg := rfl
@[simp] theorem State.committed_head (s : State) : (s.committed).head = nextIdx s.head := rfl
@[simp] theorem State.committed_tail (s : State) : (s.committed).tail = s.tail := rfl
@[simp] theorem State.committed_slot0 (s : State) : (s.committed).slot0 = s.slot0 := rfl
@[simp] theorem State.committed_slot1 (s : State) : (s.committed).slot1 = s.slot1 := rfl
@[simp] theorem State.committed_drop (s : State) : (s.committed).drop = s.drop := rfl
@[simp] theorem State.committed_pending (s : State) : (s.committed).pending = true := rfl
@[simp] theorem State.committed_running (s : State) : (s.committed).running = s.running := rfl
@[simp] theorem State.committed_cPhase (s : State) : (s.committed).cPhase = s.cPhase := rfl
@[simp] theorem State.committed_cAtt (s : State) : (s.committed).cAtt = s.cAtt := rfl
@[simp] theorem State.committed_cSize (s : State) : (s.committed).cSize = s.cSize := rfl
@[simp] theorem State.committed_cStride (s : State) : (s.committed).cStride = s.cStride := rfl
@[simp] theorem State.committed_cKind (s : State) : (s.committed).cKind = s.cKind := rfl
@[simp] theorem State.committed_cX (s : State) : (s.committed).cX = s.cX := rfl
@[simp] theorem State.committed_cY (s : State) : (s.committed).cY = s.cY := rfl
@[simp] theorem State.committed_cLen (s : State) : (s.committed).cLen = s.cLen := rfl
@[simp] theorem State.committed_cBase (s : State) : (s.committed).cBase = s.cBase := rfl
@[simp] theorem State.committed_rd (s : State) : (s.committed).rd = s.rd := rfl
@[simp] theorem State.committed_wr (s : State) : (s.committed).wr = s.wr := rfl
@[simp] theorem State.committed_dstAttached (s : State) : (s.committed).dstAttached = s.dstAttached := rfl
@[simp] theorem State.committed_dstSize (s : State) : (s.committed).dstSize = s.dstSize := rfl
@[simp] theorem State.committed_dstStrideBits (s : State) : (s.committed).dstStrideBits = s.dstStrideBits := rfl
@[simp] theorem State.committed_dst (s : State) : (s.committed).dst = s.dst := rfl
@[simp] theorem State.committed_trace (s : State) : (s.committed).trace = s.trace := rfl
@[simp] theorem State.committed_inputs (s : State) : (s.committed).inputs = s.inputs := rfl
@[simp] theorem State.committed_cSeg (s : State) : (s.committed).cSeg = s.cSeg := rfl
@[simp] theorem State.committed_races (s : State) : (s.committed).races = s.races := rfl
@[simp] theorem State.committed_faults (s : State) : (s.committed).faults = s.faults := rfl
@[simp] theorem State.committed_burst (s : State) : (s.committed).burst = s.burst := rfl
@[simp] theorem State.committed_draws (s : State) : (s.committed).draws = s.draws := rfl
@[simp] theorem State.committed_slot (s : State) (j : SlotIdx) : (s.committed).slot j = s.slot j := rfl


/-! ### returned -/

@[simp] theorem State.returned_cfg (s : State) : (s.returned).cfg = s.cfg := rfl
@[simp] theorem State.returned_head (s : State) : (s.returned).head = s.head := rfl
@[simp] theorem State.returned_tail (s : State) : (s.returned).tail = s.tail := rfl
@[simp] theorem State.returned_slot0 (s : State) : (s.returned).slot0 = s.slot0 := rfl
@[simp] theorem State.returned_slot1 (s : State) : (s.returned).slot1 = s.slot1 := rfl
@[simp] theorem State.returned_drop (s : State) : (s.returned).drop = s.drop := rfl
@[simp] theorem State.returned_pending (s : State) : (s.returned).pending = s.pending := rfl
@[simp] theorem State.returned_running (s : State) : (s.returned).running = false := rfl
@[simp] theorem State.returned_cPhase (s : State) : (s.returned).cPhase = Phase.idle := rfl
@[simp] theorem State.returned_cAtt (s : State) : (s.returned).cAtt = s.cAtt := rfl
@[simp] theorem State.returned_cSize (s : State) : (s.returned).cSize = s.cSize := rfl
@[simp] theorem State.returned_cStride (s : State) : (s.returned).cStride = s.cStride := rfl
@[simp] theorem State.returned_cKind (s : State) : (s.returned).cKind = s.cKind := rfl
@[simp] theorem State.returned_cX (s : State) : (s.returned).cX = s.cX := rfl
@[simp] theorem State.returned_cY (s : State) : (s.returned).cY = s.cY := rfl
@[simp] theorem State.returned_cLen (s : State) : (s.returned).cLen = s.cLen := rfl
@[simp] theorem State.returned_cBase (s : State) : (s.returned).cBase = s.cBase := rfl
@[simp] theorem State.returned_rd (s : State) : (s.returned).rd = s.rd := rfl
@[simp] theorem State.returned_wr (s : State) : (s.returned).wr = s.wr := rfl
@[simp] theorem State.returned_dstAttached (s : State) : (s.returned).dstAttached = s.dstAttached := rfl
@[simp] theorem State.returned_dstSize (s : State) : (s.returned).dstSize = s.dstSize := rfl
@[simp] theorem State.returned_dstStrideBits (s : State) : (s.returned).dstStrideBits = s.dstStrideBits := rfl
@[simp] theorem State.returned_dst (s : State) : (s.returned).dst = s.dst := rfl
@[simp] theorem State.returned_trace (s : State) : (s.returned).trace = s.trace := rfl
@[simp] theorem State.returned_inputs (s : State) : (s.returned).inputs = s.inputs := rfl
@[simp] theorem State.returned_cSeg (s : State) : (s.returned).cSeg = s.cSeg := rfl
@[simp] theorem State.returned_races (s : State) : (s.returned).races = s.races := rfl
@[simp] theorem State.returned_faults (s : State) : (s.returned).faults = s.faults := rfl
@[simp] theorem State.returned_burst (s : State) : (s.returned).burst = s.burst := rfl
@[simp] theorem State.returned_draws (s : State) : (s.returned).draws = s.draws := rfl
@[simp] theorem State.returned_slot (s : State) (j : SlotIdx) : (s.returned).slot j = s.slot j := rfl


/-! ### invoked -/

@[simp] theorem State.invoked_cfg (s : State) : (s.invoked).cfg = s.cfg := rfl
@[simp] theorem State.invoked_head (s : State) : (s.invoked).head = s.head := rfl
@[simp] theorem State.invoked_tail (s : State) : (s.invoked).tail = s.tail := rfl
@[simp] theorem State.invoked_slot0 (s : State) : (s.invoked).slot0 = s.slot0 := rfl
@[simp] theorem State.invoked_slot1 (s : State) : (s.invoked).slot1 = s.slot1 := rfl
@[simp] theorem State.invoked_drop (s : State) : (s.invoked).drop = s.drop := rfl
@[simp] theorem State.invoked_pending (s : State) : (s.invoked).pending = false := rfl
@[simp] theorem State.invoked_running (s : State) : (s.invoked).running = true := rfl
@[simp] theorem State.invoked_cPhase (s : State) : (s.invoked).cPhase = Phase.check := rfl
@[simp] theorem State.invoked_cAtt (s : State) : (s.invoked).cAtt = s.dstAttached := rfl
@[simp] theorem State.invoked_cSize (s : State) : (s.invoked).cSize = s.dstSize := rfl
@[simp] theorem State.invoked_cStride (s : State) : (s.invoked).cStride = s.dstStrideBits := rfl
@[simp] theorem State.invoked_cKind (s : State) : (s.invoked).cKind = s.cKind := rfl
@[simp] theorem State.invoked_cX (s : State) : (s.invoked).cX = s.cX := rfl
@[simp] theorem State.invoked_cY (s : State) : (s.invoked).cY = s.cY := rfl
@[simp] theorem State.invoked_cLen (s : State) : (s.invoked).cLen = s.cLen := rfl
@[simp] theorem State.invoked_cBase (s : State) : (s.invoked).cBase = s.cBase := rfl
@[simp] theorem State.invoked_rd (s : State) : (s.invoked).rd = s.rd := rfl
@[simp] theorem State.invoked_wr (s : State) : (s.invoked).wr = s.wr := rfl
@[simp] theorem State.invoked_dstAttached (s : State) : (s.invoked).dstAttached = s.dstAttached := rfl
@[simp] theorem State.invoked_dstSize (s : State) : (s.invoked).dstSize = s.dstSize := rfl
@[simp] theorem State.invoked_dstStrideBits (s : State) : (s.invoked).dstStrideBits = s.dstStrideBits := rfl
@[simp] theorem State.invoked_dst (s : State) : (s.invoked).dst = s.dst := rfl
@[simp] theorem State.invoked_trace (s : State) : (s.invoked).trace = s.trace := rfl
@[simp] theorem State.invoked_inputs (s : State) : (s.invoked).inputs = s.inputs := rfl
@[simp] theorem State.invoked_cSeg (s : State) : (s.invoked).cSeg = s.cSeg := rfl
@[simp] theorem State.invoked_races (s : State) : (s.invoked).races = s.races := rfl
@[simp] theorem State.invoked_faults (s : State) : (s.invoked).faults = s.faults := rfl
@[simp] theorem State.invoked_burst (s : State) : (s.invoked).burst = s.burst := rfl
@[simp] theorem State.invoked_draws (s : State) : (s.invoked).draws = s.draws := rfl
@[simp] theorem State.invoked_slot (s : State) (j : SlotIdx) : (s.invoked).slot j = s.slot j := rfl


/-! ### storePayload -/

@[simp] theorem State.storePayload_cfg (s : State) (a : Nat) (bs : List Byte) : (s.storePayload a bs).cfg = s.cfg := rfl
@[simp] theorem State.storePayload_head (s : State) (a : Nat) (bs : List Byte) : (s.storePayload a bs).head = s.head := rfl
@[simp] theorem State.storePayload_tail (s : State) (a : Nat) (bs : List Byte) : (s.storePayload a bs).tail = s.tail := rfl
@[simp] theorem State.storePayload_drop (s : State) (a : Nat) (bs : List Byte) : (s.storePayload a bs).drop = s.drop := rfl
@[simp] theorem State.storePayload_pending (s : State) (a : Nat) (bs : List Byte) : (s.storePayload a bs).pending = s.pending := rfl
@[simp] theorem State.storePayload_running (s : State) (a : Nat) (bs : List Byte) : (s.storePayload a bs).running = s.running := rfl
@[simp] theorem State.storePayload_cPhase (s : State) (a : Nat) (bs : List Byte) : (s.storePayload a bs).cPhase = s.cPhase := rfl
@[simp] theorem State.storePayload_cAtt (s : State) (a : Nat) (bs : List Byte) : (s.storePayload a bs).cAtt = s.cAtt := rfl
@[simp] theorem State.storePayload_cSize (s : State) (a : Nat) (bs : List Byte) : (s.storePayload a bs).cSize = s.cSize := rfl
@[simp] theorem State.storePayload_cStride (s : State) (a : Nat) (bs : List Byte) : (s.storePayload a bs).cStride = s.cStride := rfl
@[simp] theorem State.storePayload_cKind (s : State) (a : Nat) (bs : List Byte) : (s.storePayload a bs).cKind = s.cKind := rfl
@[simp] theorem State.storePayload_cX (s : State) (a : Nat) (bs : List Byte) : (s.storePayload a bs).cX = s.cX := rfl
@[simp] theorem State.storePayload_cY (s : State) (a : Nat) (bs : List Byte) : (s.storePayload a bs).cY = s.cY := rfl
@[simp] theorem State.storePayload_cLen (s : State) (a : Nat) (bs : List Byte) : (s.storePayload a bs).cLen = s.cLen := rfl
@[simp] theorem State.storePayload_cBase (s : State) (a : Nat) (bs : List Byte) : (s.storePayload a bs).cBase = s.cBase := rfl
@[simp] theorem State.storePayload_rd (s : State) (a : Nat) (bs : List Byte) : (s.storePayload a bs).rd = s.rd := rfl
@[simp] theorem State.storePayload_wr (s : State) (a : Nat) (bs : List Byte) : (s.storePayload a bs).wr = s.wr := rfl
@[simp] theorem State.storePayload_dstAttached (s : State) (a : Nat) (bs : List Byte) : (s.storePayload a bs).dstAttached = s.dstAttached := rfl
@[simp] theorem State.storePayload_dstSize (s : State) (a : Nat) (bs : List Byte) : (s.storePayload a bs).dstSize = s.dstSize := rfl
@[simp] theorem State.storePayload_dstStrideBits (s : State) (a : Nat) (bs : List Byte) : (s.storePayload a bs).dstStrideBits = s.dstStrideBits := rfl
@[simp] theorem State.storePayload_dst (s : State) (a : Nat) (bs : List Byte) : (s.storePayload a bs).dst = s.dst := rfl
@[simp] theorem State.storePayload_trace (s : State) (a : Nat) (bs : List Byte) : (s.storePayload a bs).trace = s.trace := rfl
@[simp] theorem State.storePayload_inputs (s : State) (a : Nat) (bs : List Byte) : (s.storePayload a bs).inputs = s.inputs := rfl
@[simp] theorem State.storePayload_cSeg (s : State) (a : Nat) (bs : List Byte) : (s.storePayload a bs).cSeg = s.cSeg := rfl
@[simp] theorem State.storePayload_races (s : State) (a : Nat) (bs : List Byte) : (s.storePayload a bs).races = if s.holds && s.tail == s.head then s.races ++ [{ base := a, count := bs.length, before := (s.slot s.head).payload }] else s.races := rfl
@[simp] theorem State.storePayload_faults (s : State) (a : Nat) (bs : List Byte) : (s.storePayload a bs).faults = s.faults := rfl
@[simp] theorem State.storePayload_burst (s : State) (a : Nat) (bs : List Byte) : (s.storePayload a bs).burst = s.burst := rfl
@[simp] theorem State.storePayload_draws (s : State) (a : Nat) (bs : List Byte) : (s.storePayload a bs).draws = s.draws := rfl


/-! ### released -/

@[simp] theorem State.released_cfg (s : State) : (s.released).cfg = s.cfg := rfl
@[simp] theorem State.released_head (s : State) : (s.released).head = s.head := rfl
@[simp] theorem State.released_tail (s : State) : (s.released).tail = nextIdx s.tail := rfl
@[simp] theorem State.released_slot0 (s : State) : (s.released).slot0 = s.slot0 := rfl
@[simp] theorem State.released_slot1 (s : State) : (s.released).slot1 = s.slot1 := rfl
@[simp] theorem State.released_drop (s : State) : (s.released).drop = s.drop := rfl
@[simp] theorem State.released_pending (s : State) : (s.released).pending = s.pending := rfl
@[simp] theorem State.released_running (s : State) : (s.released).running = s.running := rfl
@[simp] theorem State.released_cPhase (s : State) : (s.released).cPhase = Phase.loop := rfl
@[simp] theorem State.released_cAtt (s : State) : (s.released).cAtt = s.cAtt := rfl
@[simp] theorem State.released_cSize (s : State) : (s.released).cSize = s.cSize := rfl
@[simp] theorem State.released_cStride (s : State) : (s.released).cStride = s.cStride := rfl
@[simp] theorem State.released_cKind (s : State) : (s.released).cKind = s.cKind := rfl
@[simp] theorem State.released_cX (s : State) : (s.released).cX = s.cX := rfl
@[simp] theorem State.released_cY (s : State) : (s.released).cY = s.cY := rfl
@[simp] theorem State.released_cLen (s : State) : (s.released).cLen = s.cLen := rfl
@[simp] theorem State.released_cBase (s : State) : (s.released).cBase = s.cBase := rfl
@[simp] theorem State.released_rd (s : State) : (s.released).rd = s.rd := rfl
@[simp] theorem State.released_wr (s : State) : (s.released).wr = s.wr := rfl
@[simp] theorem State.released_dstAttached (s : State) : (s.released).dstAttached = s.dstAttached := rfl
@[simp] theorem State.released_dstSize (s : State) : (s.released).dstSize = s.dstSize := rfl
@[simp] theorem State.released_dstStrideBits (s : State) : (s.released).dstStrideBits = s.dstStrideBits := rfl
@[simp] theorem State.released_dst (s : State) : (s.released).dst = s.dst := rfl
@[simp] theorem State.released_trace (s : State) : (s.released).trace = s.trace := rfl
@[simp] theorem State.released_inputs (s : State) : (s.released).inputs = s.inputs := rfl
@[simp] theorem State.released_cSeg (s : State) : (s.released).cSeg = s.cSeg := rfl
@[simp] theorem State.released_races (s : State) : (s.released).races = [] := rfl
@[simp] theorem State.released_faults (s : State) : (s.released).faults = s.faults := rfl
@[simp] theorem State.released_burst (s : State) : (s.released).burst = s.burst := rfl
@[simp] theorem State.released_draws (s : State) : (s.released).draws = s.draws := rfl
@[simp] theorem State.released_slot (s : State) (j : SlotIdx) : (s.released).slot j = s.slot j := rfl


end Sys2Proof.Machine
end

