-- ==== Sys2Proof/Laws/Memory.lean ====
section
/-! SUPPORT. The laws of byte memories: what a read gives after a write, and that every operation keeps the canonical
form. -/

namespace Sys2Proof.Machine

variable {m : Memory} {a b n size : Nat} {v : Byte}

/-! ## One byte -/

@[simp] theorem Memory.read_nil : Memory.read [] a = none := rfl

@[simp] theorem Memory.read_write_self : Memory.read (Memory.write m a v) a = some v := by
  induction m with
  | nil => simp [Memory.write, Memory.read]
  | cons c m ih =>
    obtain ⟨k, w⟩ := c
    simp only [Memory.write]
    split_ifs with h₁ h₂
    · simp [Memory.read]
    · simp [Memory.read]
    · simp [Memory.read, ih, Ne.symm h₂]

theorem Memory.read_write_ne (h : b ≠ a) : Memory.read (Memory.write m a v) b = Memory.read m b := by
  induction m with
  | nil => simp [Memory.write, Memory.read, Ne.symm h]
  | cons c m ih =>
    obtain ⟨k, w⟩ := c
    simp only [Memory.write]
    split_ifs with h₁ h₂
    · simp [Memory.read, Ne.symm h]
    · subst h₂; simp [Memory.read, Ne.symm h]
    · simp [Memory.read, ih]

theorem Memory.read_write : Memory.read (Memory.write m a v) b = if b = a then some v else Memory.read m b := by
  split_ifs with h
  · subst h; exact Memory.read_write_self
  · exact Memory.read_write_ne h

theorem Memory.read_none_of_lt (h : ∀ c ∈ m, a < c.1) : Memory.read m a = none := by
  induction m with
  | nil => rfl
  | cons c m ih =>
    have hc := h c (by simp)
    simp only [Memory.read]
    rw [if_neg (by omega), ih fun d hd => h d (by simp [hd])]

theorem Memory.wf_cons {c : Host.Cell} :
    Memory.wf (c :: m) = true ↔ (∀ d ∈ m, c.1 < d.1) ∧ Memory.wf m = true := by
  simp [Memory.wf, List.all_eq_true]

theorem Memory.read_forget_self (h : Memory.wf m = true) : Memory.read (Memory.forget m a) a = none := by
  induction m with
  | nil => rfl
  | cons c m ih =>
    obtain ⟨hc, hm⟩ := Memory.wf_cons.mp h
    simp only [Memory.forget]
    split_ifs with hk
    · exact Memory.read_none_of_lt fun d hd => hk ▸ hc d hd
    · simp [Memory.read, hk, ih hm]

theorem Memory.read_forget_ne (h : b ≠ a) : Memory.read (Memory.forget m a) b = Memory.read m b := by
  induction m with
  | nil => rfl
  | cons c m ih =>
    simp only [Memory.forget]
    split_ifs with hk
    · simp [Memory.read, hk, Ne.symm h]
    · simp [Memory.read, ih]

/-! ## The canonical form -/

theorem Memory.mem_write {c : Host.Cell} (h : c ∈ Memory.write m a v) : c = (a, v) ∨ c ∈ m := by
  induction m with
  | nil => simpa [Memory.write] using h
  | cons d m ih =>
    simp only [Memory.write] at h
    split_ifs at h
    · simpa using h
    · rcases List.mem_cons.mp h with h | h
      · exact .inl h
      · exact .inr (List.mem_cons_of_mem _ h)
    · rcases List.mem_cons.mp h with h | h
      · exact .inr (h ▸ List.mem_cons_self)
      · exact (ih h).imp id (List.mem_cons_of_mem _)

theorem Memory.mem_forget {c : Host.Cell} (h : c ∈ Memory.forget m a) : c ∈ m := by
  induction m with
  | nil => exact h
  | cons d m ih =>
    simp only [Memory.forget] at h
    split_ifs at h
    · exact List.mem_cons_of_mem _ h
    · rcases List.mem_cons.mp h with h | h
      · exact h ▸ List.mem_cons_self
      · exact List.mem_cons_of_mem _ (ih h)

theorem Memory.wf_write (h : Memory.wf m = true) : Memory.wf (Memory.write m a v) = true := by
  induction m with
  | nil => rfl
  | cons c m ih =>
    obtain ⟨hc, hm⟩ := Memory.wf_cons.mp h
    simp only [Memory.write]
    split_ifs with h₁ h₂
    · refine Memory.wf_cons.mpr ⟨fun d hd => ?_, h⟩
      rcases List.mem_cons.mp hd with hd | hd
      · exact hd ▸ h₁
      · exact lt_trans h₁ (hc d hd)
    · exact Memory.wf_cons.mpr ⟨fun d hd => h₂ ▸ hc d hd, hm⟩
    · refine Memory.wf_cons.mpr ⟨fun d hd => ?_, ih hm⟩
      rcases Memory.mem_write hd with hd | hd
      · have : c.1 < a := by omega
        simpa [hd] using this
      · exact hc d hd

theorem Memory.wf_forget (h : Memory.wf m = true) : Memory.wf (Memory.forget m a) = true := by
  induction m with
  | nil => rfl
  | cons c m ih =>
    obtain ⟨hc, hm⟩ := Memory.wf_cons.mp h
    simp only [Memory.forget]
    split_ifs
    · exact hm
    · exact Memory.wf_cons.mpr ⟨fun d hd => hc d (Memory.mem_forget hd), ih hm⟩

theorem Memory.within_iff : Memory.within n m = true ↔ ∀ c ∈ m, c.1 < n := by
  simp [Memory.within, List.all_eq_true]

theorem Memory.within_write (h : Memory.within n m = true) (ha : a < n) :
    Memory.within n (Memory.write m a v) = true := by
  rw [Memory.within_iff] at *
  intro c hc
  rcases Memory.mem_write hc with hc | hc
  · simpa [hc] using ha
  · exact h c hc

/-! ## Runs of bytes -/

theorem Memory.read_writeBytes (m : Memory) (a : Nat) (bs : List Byte) (b : Nat) :
    Memory.read (Memory.writeBytes m a bs) b =
      if a ≤ b ∧ b < a + bs.length then bs[b - a]? else Memory.read m b := by
  induction bs generalizing m a with
  | nil => rw [if_neg (by simp only [List.length_nil]; omega)]; rfl
  | cons v bs ih =>
    simp only [Memory.writeBytes, ih, List.length_cons]
    by_cases hb : b = a
    · subst hb; simp
    · rw [Memory.read_write_ne hb]
      by_cases hr : a ≤ b ∧ b < a + (bs.length + 1)
      · rw [if_pos (by omega), if_pos hr, show b - a = (b - (a + 1)) + 1 by omega, List.getElem?_cons_succ]
      · rw [if_neg (by omega), if_neg hr]

theorem Memory.wf_writeBytes (bs : List Byte) (h : Memory.wf m = true) :
    Memory.wf (Memory.writeBytes m a bs) = true := by
  induction bs generalizing m a with
  | nil => exact h
  | cons v bs ih => exact ih (Memory.wf_write h)

theorem Memory.within_writeBytes (bs : List Byte) (h : Memory.within n m = true) (ha : a + bs.length ≤ n) :
    Memory.within n (Memory.writeBytes m a bs) = true := by
  induction bs generalizing m a with
  | nil => exact h
  | cons v bs ih =>
    simp only [List.length_cons] at ha
    exact ih (Memory.within_write h (by omega)) (by omega)

theorem Memory.wf_surfaceWrites (bs : List Byte) (h : Memory.wf m = true) :
    Memory.wf (Memory.surfaceWrites size m a bs) = true := by
  induction bs generalizing m a with
  | nil => exact h
  | cons v bs ih =>
    simp only [Memory.surfaceWrites]
    split_ifs
    · exact ih (Memory.wf_write h)
    · exact ih (Memory.wf_forget h)

/-- What the surface holds after a run of writes: outside the run as before; in the run the byte written where the
address is inside the surface, and nothing known where it is not. -/
theorem Memory.read_surfaceWrites (bs : List Byte) (h : Memory.wf m = true) (b : Nat) :
    Memory.read (Memory.surfaceWrites size m a bs) b =
      if a ≤ b ∧ b < a + bs.length then (if b < size then bs[b - a]? else none) else Memory.read m b := by
  induction bs generalizing m a with
  | nil => rw [if_neg (by simp only [List.length_nil]; omega)]; rfl
  | cons v bs ih =>
    have hwf : Memory.wf (if a < size then Memory.write m a v else Memory.forget m a) = true := by
      split_ifs
      · exact Memory.wf_write h
      · exact Memory.wf_forget h
    simp only [Memory.surfaceWrites, ih hwf, List.length_cons]
    by_cases hb : b = a
    · subst hb
      rw [if_neg (by omega), if_pos (⟨Nat.le_refl _, by omega⟩ : b ≤ b ∧ b < b + (bs.length + 1))]
      split_ifs
      · simp
      · exact Memory.read_forget_self h
    · by_cases hr : a ≤ b ∧ b < a + (bs.length + 1)
      · rw [if_pos (by omega), if_pos hr, show b - a = (b - (a + 1)) + 1 by omega, List.getElem?_cons_succ]
      · rw [if_neg (by omega), if_neg hr]
        split_ifs
        · exact Memory.read_write_ne hb
        · exact Memory.read_forget_ne hb

/-- A run of writes leaves every other address alone. -/
theorem Memory.read_surfaceWrites_of_not_in (bs : List Byte) (b : Nat) (hr : ¬(a ≤ b ∧ b < a + bs.length)) :
    Memory.read (Memory.surfaceWrites size m a bs) b = Memory.read m b := by
  induction bs generalizing m a with
  | nil => rfl
  | cons v bs ih =>
    simp only [List.length_cons] at hr
    rw [Memory.surfaceWrites, ih (by omega)]
    split_ifs
    · exact Memory.read_write_ne (by omega)
    · exact Memory.read_forget_ne (by omega)

/-! ## Runs of transactions -/

@[simp] theorem length_dstTransactions (a : Nat) (bs : List Byte) : (dstTransactions a bs).length = bs.length := by
  induction bs generalizing a with
  | nil => rfl
  | cons v bs ih => simp [dstTransactions, ih]

theorem dstTransactions_append (a : Nat) (bs cs : List Byte) :
    dstTransactions a (bs ++ cs) = dstTransactions a bs ++ dstTransactions (a + bs.length) cs := by
  induction bs generalizing a with
  | nil => rfl
  | cons v bs ih => simp [dstTransactions, ih, Nat.add_assoc, Nat.add_comm 1]

theorem getElem?_dstTransactions (a : Nat) (bs : List Byte) (k : Nat) :
    (dstTransactions a bs)[k]? = bs[k]?.map fun b => .dstWr (a + k) b := by
  induction bs generalizing a k with
  | nil => rfl
  | cons v bs ih =>
    cases k with
    | zero => simp [dstTransactions]
    | succ k => simp [dstTransactions, ih, Nat.add_assoc, Nat.add_comm 1]

/-- The transactions of a run given byte by byte. -/
theorem dstTransactions_map_range (a n : Nat) (f : Nat → Byte) :
    dstTransactions a ((List.range n).map f) = (List.range n).map fun k => .dstWr (a + k) (f k) := by
  apply List.ext_getElem?
  intro k
  rw [getElem?_dstTransactions, List.getElem?_map, List.getElem?_map, Option.map_map]
  by_cases h : k < n <;> simp [h]

/-- A surface that holds all of a run of writes, whatever the memory was. -/
theorem Memory.read_surfaceWrites_inside (m : Memory) (bs : List Byte) (h : a + bs.length ≤ size) (b : Nat) :
    Memory.read (Memory.surfaceWrites size m a bs) b =
      if a ≤ b ∧ b < a + bs.length then bs[b - a]? else Memory.read m b := by
  rw [← Memory.read_writeBytes]
  congr 1
  induction bs generalizing m a with
  | nil => rfl
  | cons v bs ih =>
    simp only [List.length_cons] at h
    rw [Memory.surfaceWrites, Memory.writeBytes, if_pos (by omega), ih _ (by omega)]

/-- A run of writes inside the surface records no fault. -/
theorem outOfSurface_eq_nil {bs : List Byte} (h : a + bs.length ≤ size) : outOfSurface size a bs = [] := by
  induction bs generalizing a with
  | nil => rfl
  | cons v bs ih =>
    simp only [List.length_cons] at h
    rw [outOfSurface, if_pos (by omega), ih (by omega)]

theorem Memory.writeBytes_append (m : Memory) (a : Nat) (bs cs : List Byte) :
    Memory.writeBytes m a (bs ++ cs) = Memory.writeBytes (Memory.writeBytes m a bs) (a + bs.length) cs := by
  induction bs generalizing m a with
  | nil => rfl
  | cons v bs ih => simp [Memory.writeBytes, ih, Nat.add_assoc, Nat.add_comm 1]

theorem Memory.surfaceWrites_append (m : Memory) (a : Nat) (bs cs : List Byte) :
    Memory.surfaceWrites size m a (bs ++ cs) =
      Memory.surfaceWrites size (Memory.surfaceWrites size m a bs) (a + bs.length) cs := by
  induction bs generalizing m a with
  | nil => rfl
  | cons v bs ih => simp [Memory.surfaceWrites, ih, Nat.add_assoc, Nat.add_comm 1]

theorem outOfSurface_append (a : Nat) (bs cs : List Byte) :
    outOfSurface size a (bs ++ cs) = outOfSurface size a bs ++ outOfSurface size (a + bs.length) cs := by
  induction bs generalizing a with
  | nil => rfl
  | cons v bs ih =>
    simp only [List.cons_append, outOfSurface, ih, List.length_cons]
    split_ifs <;> simp [Nat.add_assoc, Nat.add_comm 1]

end Sys2Proof.Machine
end

