-- ==== Sys2Proof/Laws/Ops.lean ====
section
/-! SUPPORT. One lemma per shared operation, saying everything it does, and the inversion lemmas of `exec` and
`step`. -/

namespace Sys2Proof.Machine

open Host (Outcome)

variable {s t : State} {i j : SlotIdx}

/-! ## Slot indices and Slots -/

theorem nextIdx_val (i : SlotIdx) : (nextIdx i).val = (i.val + 1) % 2 := rfl

theorem nextIdx_ne (i : SlotIdx) : nextIdx i ≠ i := by revert i; decide

theorem nextIdx_nextIdx (i : SlotIdx) : nextIdx (nextIdx i) = i := by revert i; decide

theorem eq_nextIdx_of_ne (h : i ≠ j) : i = nextIdx j := by revert i j; decide

@[simp] theorem State.setSlot_slot_self (s : State) (i : SlotIdx) (v : Slot) : (s.setSlot i v).slot i = v := by
  by_cases h : i = 0 <;> simp [State.slot, h]

theorem State.setSlot_slot_ne (s : State) (v : Slot) (h : j ≠ i) : (s.setSlot i v).slot j = s.slot j := by
  revert h
  revert i j
  simp [Fin.forall_fin_two, State.slot]

/-- A property of every Slot is one of `slot[0]` and `slot[1]`. -/
theorem State.forall_slot {p : Slot → Prop} : (∀ i, p (s.slot i)) ↔ p s.slot0 ∧ p s.slot1 := by
  simp [Fin.forall_fin_two, State.slot]

theorem State.slot0_eq (s : State) : s.slot0 = s.slot 0 := rfl

theorem State.slot1_eq (s : State) : s.slot1 = s.slot 1 := rfl

/-! ## The producer's operations -/

theorem State.storePayload_slot_self (s : State) (a : Nat) (bs : List Byte) :
    (s.storePayload a bs).slot s.head =
      { s.slot s.head with payload := Memory.writeBytes (s.slot s.head).payload a bs } :=
  State.setSlot_slot_self s s.head _

theorem State.storePayload_slot_ne (s : State) (a : Nat) (bs : List Byte) (h : j ≠ s.head) :
    (s.storePayload a bs).slot j = s.slot j :=
  State.setSlot_slot_ne s _ h

theorem State.commitIfShort_eq (s : State) (len : Nat) :
    s.commitIfShort len =
      { s with
        head := if len < maxChunk then nextIdx s.head else s.head
        pending := if len < maxChunk then true else s.pending } := by
  by_cases h : len < maxChunk <;> simp [State.commitIfShort, isShort, h, State.committed, State.signalled]

/-- Everything an accepted START chunk does (40_reassembler R112, R113). -/
theorem State.acceptStart_eq (s : State) (k : Kind) (x y w h : Half) (p : List Byte) :
    s.acceptStart k x y w h p =
      { s.setSlot s.head
          { kind := k, x := x, y := y, width := w, height := h, length := BitVec.ofNat 32 p.length
            payload := Memory.writeBytes (s.slot s.head).payload 0 p } with
        drop := false
        races := (s.storePayload 0 p).races
        head := if hdrLen + p.length < maxChunk then nextIdx s.head else s.head
        pending := if hdrLen + p.length < maxChunk then true else s.pending } := by
  rw [State.acceptStart, State.commitIfShort_eq, State.storePayload_slot_self]
  by_cases hz : s.head = 0 <;> simp [State.setSlot, State.storePayload, hz]

/-- Everything an append does (40_reassembler R116). -/
theorem State.append_eq (s : State) (bs : List Byte) :
    s.append bs =
      { s.setSlot s.head
          { s.slot s.head with
            length := BitVec.ofNat 32 ((s.slot s.head).length.toNat + bs.length)
            payload := Memory.writeBytes (s.slot s.head).payload (s.slot s.head).length.toNat bs } with
        races := (s.storePayload (s.slot s.head).length.toNat bs).races
        head := if bs.length < maxChunk then nextIdx s.head else s.head
        pending := if bs.length < maxChunk then true else s.pending } := by
  rw [State.append, State.commitIfShort_eq, State.storePayload_slot_self]
  by_cases hz : s.head = 0 <;> simp [State.setSlot, State.storePayload, hz]

/-- The three things a CONT chunk can do (40_reassembler R116 to R118). -/
theorem execCont_cases (bs : List Byte) (s : State) :
    (s.drop = true ∧ execCont bs s = .next s) ∨
    (s.drop = false ∧ (s.slot s.head).length.toNat + bs.length ≤ s.cfg.capacity.bytes ∧
      execCont bs s = .next (s.append bs)) ∨
    (s.drop = false ∧ s.cfg.capacity.bytes < (s.slot s.head).length.toNat + bs.length ∧
      execCont bs s =
        .next { s.raise .oversize ((s.slot s.head).length.toNat + bs.length) with drop := true }) := by
  cases hd : s.drop
  · by_cases hf : (s.slot s.head).length.toNat + bs.length ≤ s.cfg.capacity.bytes
    · exact .inr (.inl ⟨rfl, hf, by simp [execCont, hd, State.fits, hf]⟩)
    · exact .inr (.inr ⟨rfl, by omega, by simp [execCont, hd, State.fits, hf]⟩)
  · exact .inl ⟨rfl, by simp [execCont, hd]⟩

/-! ## The consumer's operations -/

@[simp] theorem State.length_payloadBytes (s : State) (a n : Nat) : (s.payloadBytes a n).length = n := by
  simp [State.payloadBytes]

theorem State.getElem?_payloadBytes (s : State) (a n k : Nat) :
    (s.payloadBytes a n)[k]? = if k < n then some (s.payloadByte (a + k) (s.draws + k)) else none := by
  by_cases h : k < n <;> simp [State.payloadBytes, h]

@[simp] theorem State.getElem_payloadBytes (s : State) (a n k : Nat) (h : k < (s.payloadBytes a n).length) :
    (s.payloadBytes a n)[k] = s.payloadByte (a + k) (s.draws + k) := by
  simp [State.payloadBytes]

@[simp] theorem length_repeatBytes (p0 p1 : Byte) (a n : Nat) : (repeatBytes p0 p1 a n).length = n := by
  simp [repeatBytes]

@[simp] theorem getElem_repeatBytes (p0 p1 : Byte) (a n k : Nat) (h : k < (repeatBytes p0 p1 a n).length) :
    (repeatBytes p0 p1 a n)[k] = if (a + k) % 2 = 0 then p0 else p1 := by
  simp [repeatBytes]

theorem getElem?_repeatBytes (p0 p1 : Byte) (a n k : Nat) :
    (repeatBytes p0 p1 a n)[k]? = if k < n then some (if (a + k) % 2 = 0 then p0 else p1) else none := by
  by_cases h : k < n <;> simp [repeatBytes, h]

theorem State.granted_le (s : State) (left : Nat) : s.granted left ≤ left := by
  unfold State.granted
  split
  · exact Nat.le_refl _
  · exact Nat.min_le_right _ _

theorem State.granted_of_none (h : s.burst = none) (left : Nat) : s.granted left = left := by
  simp [State.granted, h]

theorem State.whenEnabled_eq_next {u : State} {o : Instr} :
    s.whenEnabled o u = .next t ↔ s.enabledStep = some o ∧ t = u := by
  unfold State.whenEnabled
  split_ifs with h
  · simp [h, eq_comm]
  · simp [h]

theorem State.whenEnabled_of_enabled {u : State} {o : Instr} (h : s.enabledStep = some o) :
    s.whenEnabled o u = .next u := by
  simp [State.whenEnabled, h]

/-- Which operation is enabled, case by case (41_ring R146, 42_decoder R160). -/
theorem State.enabledStep_cases {o : Instr} (h : s.enabledStep = some o) :
    (s.running = false ∧ s.pending = true ∧ o = .invoke) ∨
    (s.running = true ∧
      ((s.cPhase = .check ∧ o = .check) ∨ (s.cPhase = .loop ∧ o = .take) ∨ (s.cPhase = .raw ∧ o = .rawBlt) ∨
       (s.cPhase = .rle ∧ s.cSeg = none ∧ o = .rleBlt) ∨
       (s.cPhase = .rle ∧ ∃ g, s.cSeg = some g ∧ o = decodeSegment g.header) ∨
       (s.cPhase = .release ∧ o = .release))) := by
  unfold State.enabledStep at h
  cases hr : s.running <;> simp only [hr] at h
  · cases hp : s.pending <;> simp_all
  · cases hph : s.cPhase <;> simp only [hph] at h <;> try simp_all
    cases hs : s.cSeg <;> simp_all

theorem decodeSegment_cases (h : Byte) :
    (∃ b, decodeSegment h = .segLiteral b (segCountM1 h)) ∨ ∃ b, decodeSegment h = .segRepeat b (segCountM1 h) := by
  unfold decodeSegment
  split_ifs
  · exact .inr ⟨_, rfl⟩
  · exact .inl ⟨_, rfl⟩

/-- An enabled operation runs, and this is what it gives: the effect of one of the internal operations. -/
theorem exec_enabled {o : Instr} (h : s.enabledStep = some o) :
    (o = .invoke ∧ s.running = false ∧ s.pending = true ∧ exec o s = .next s.invoked) ∨
    (s.running = true ∧
      ((s.cPhase = .check ∧ o = .check ∧ exec o s = .next s.checked) ∨
       (s.cPhase = .loop ∧ o = .take ∧ exec o s = .next s.taken) ∨
       (s.cPhase = .raw ∧ o = .rawBlt ∧ exec o s = .next s.rawCopied) ∨
       (s.cPhase = .rle ∧ s.cSeg = none ∧ o = .rleBlt ∧ exec o s = .next s.segmentBegun) ∨
       (∃ g b, s.cPhase = .rle ∧ s.cSeg = some g ∧ o = .segLiteral b (segCountM1 g.header) ∧
          exec o s = .next (s.literalMoved g (segCountM1 g.header))) ∨
       (∃ g b, s.cPhase = .rle ∧ s.cSeg = some g ∧ o = .segRepeat b (segCountM1 g.header) ∧
          exec o s = .next (s.repeatMoved g (segCountM1 g.header))) ∨
       (s.cPhase = .release ∧ o = .release ∧ exec o s = .next s.released))) := by
  have hw : ∀ u, s.whenEnabled o u = .next u := fun u => State.whenEnabled_of_enabled h
  rcases State.enabledStep_cases h with ⟨hr, hp, ho⟩ | ⟨hr, hc⟩
  · exact .inl ⟨ho, hr, hp, by subst ho; exact hw _⟩
  · refine .inr ⟨hr, ?_⟩
    rcases hc with ⟨hp, ho⟩ | ⟨hp, ho⟩ | ⟨hp, ho⟩ | ⟨hp, hs, ho⟩ | ⟨hp, g, hs, ho⟩ | ⟨hp, ho⟩
    · exact .inl ⟨hp, ho, by subst ho; exact hw _⟩
    · exact .inr (.inl ⟨hp, ho, by subst ho; exact hw _⟩)
    · exact .inr (.inr (.inl ⟨hp, ho, by subst ho; exact hw _⟩))
    · exact .inr (.inr (.inr (.inl ⟨hp, hs, ho, by subst ho; exact hw _⟩)))
    · rcases decodeSegment_cases g.header with ⟨b, hb⟩ | ⟨b, hb⟩
      · refine .inr (.inr (.inr (.inr (.inl ⟨g, b, hp, hs, ho.trans hb, ?_⟩))))
        rw [ho, hb] at hw ⊢
        simp only [exec, execSegLiteral, hs, hw]
      · refine .inr (.inr (.inr (.inr (.inr (.inl ⟨g, b, hp, hs, ho.trans hb, ?_⟩)))))
        rw [ho, hb] at hw ⊢
        simp only [exec, execSegRepeat, hs, hw]
    · exact .inr (.inr (.inr (.inr (.inr (.inr ⟨hp, ho, by subst ho; exact hw _⟩)))))

/-! ## The step -/

theorem step_nil (h : s.inputs = []) :
    step s = match s.enabledStep with
      | some i => exec i (s.withBurst none)
      | none => .next s := by
  simp only [step, fetch, h, fetchInternal]
  cases s.enabledStep <;> rfl

theorem step_turn {b : Option Nat} {rest : List Input} (h : s.inputs = .turn b :: rest) :
    step s = match s.enabledStep with
      | some i => exec i ((s.withInputs rest).withBurst b)
      | none => .next (s.withInputs rest) := by
  have he : (s.withInputs rest).enabledStep = s.enabledStep := rfl
  simp only [step, fetch, h, fetchInternal, he]
  cases s.enabledStep <;> rfl

theorem step_chunk {bytes : List Byte} {rest : List Input} (h : s.inputs = .chunk bytes :: rest) :
    step s = if maxChunk < bytes.length then .refused .chunkTooLong
      else exec (decodeChunkForm s.cfg.hdrEndian bytes) (s.withInputs rest) := by
  simp only [step, fetch, h, fetchChunk, decode, decodeChunk]
  by_cases hl : maxChunk < bytes.length <;> simp [hl]

theorem step_surface {att : Bool} {size stride : Word} {rest : List Input}
    (h : s.inputs = .surface att size stride :: rest) :
    step s = if s.running = true then .refused .surfaceMovedWhileRunning
      else .next ((s.withInputs rest).withSurface att size stride) := by
  simp only [step, fetch, h, moveSurface]
  rfl

theorem step_reset {rest : List Input} (h : s.inputs = .reset :: rest) :
    step s = exec .reset (s.withInputs rest) := by
  simp only [step, fetch, h]

/-- The form a delivered chunk decodes to is a chunk form. -/
theorem isChunkForm_decodeChunkForm (e : Endian) (bytes : List Byte) :
    isChunkForm (decodeChunkForm e bytes) = true := by
  unfold decodeChunkForm
  split
  · rfl
  · split_ifs
    · split
      · rfl
      · unfold decodeStart
        split <;> split <;> rfl
    · rfl

/-- Every step that goes on is one of these. -/
theorem step_cases (h : step s = .next t) :
    (∃ s' o b, s' = (s.withInputs s.inputs.tail).withBurst b ∧
      (s.inputs = [] ∧ b = none ∨ s.inputs.head? = some (.turn b)) ∧ s.enabledStep = some o ∧
      s'.enabledStep = some o ∧ exec o s' = .next t) ∨
    (s.enabledStep = none ∧ (s.inputs = [] ∨ ∃ b, s.inputs.head? = some (.turn b)) ∧
      t = s.withInputs s.inputs.tail) ∨
    (∃ bytes, s.inputs.head? = some (.chunk bytes) ∧ bytes.length ≤ maxChunk ∧
      exec (decodeChunkForm s.cfg.hdrEndian bytes) (s.withInputs s.inputs.tail) = .next t) ∨
    (∃ att size stride, s.inputs.head? = some (.surface att size stride) ∧ s.running = false ∧
      t = (s.withInputs s.inputs.tail).withSurface att size stride) ∨
    (s.inputs.head? = some .reset ∧ t = (s.withInputs s.inputs.tail).resetRegisters) := by
  rcases hi : s.inputs with _ | ⟨(bytes | ⟨att, size, stride⟩ | _ | b), rest⟩
  · rw [step_nil hi] at h
    cases he : s.enabledStep with
    | some o =>
      rw [he] at h
      exact .inl ⟨s.withBurst none, o, none, by rw [List.tail_nil, ← hi]; rfl, .inl ⟨rfl, rfl⟩, rfl, he, h⟩
    | none =>
      rw [he] at h
      have ht : s = t := by simpa using h
      subst ht
      exact .inr (.inl ⟨rfl, .inl rfl, by rw [List.tail_nil, ← hi]; rfl⟩)
  · rw [step_chunk hi] at h
    split_ifs at h with hl
    exact .inr (.inr (.inl ⟨bytes, rfl, by omega, by simpa using h⟩))
  · rw [step_surface hi] at h
    split_ifs at h with hr
    exact .inr (.inr (.inr (.inl ⟨att, size, stride, rfl, by simpa using hr, by simpa [eq_comm] using h⟩)))
  · rw [step_reset hi] at h
    exact .inr (.inr (.inr (.inr ⟨rfl, by simpa [exec, execReset, eq_comm] using h⟩)))
  · rw [step_turn hi] at h
    cases he : s.enabledStep with
    | some o =>
      rw [he] at h
      exact .inl ⟨(s.withInputs rest).withBurst b, o, b, by simp, .inr rfl, rfl, he, h⟩
    | none =>
      rw [he] at h
      exact .inr (.inl ⟨rfl, .inr ⟨b, rfl⟩, by simpa [eq_comm] using h⟩)

end Sys2Proof.Machine
end

