-- ==== Sys2Proof/Laws/Consumer.lean ====
section
/-! SUPPORT. What each internal operation gives, field by field, when it runs, and how partial moves of a copy or of a
segment add up. -/

namespace Sys2Proof.Machine

variable {s t u : State} {i : Instr} {b : Bool} {c : BitVec 6}

/-! ## What does not depend on the burst and the inputs -/

@[simp] theorem State.withInputs_self (s : State) : s.withInputs s.inputs = s := rfl
@[simp] theorem State.enabledStep_withInputs (s : State) (l : List Input) :
    (s.withInputs l).enabledStep = s.enabledStep := rfl
@[simp] theorem State.enabledStep_withBurst (s : State) (k : Option Nat) :
    (s.withBurst k).enabledStep = s.enabledStep := rfl
@[simp] theorem State.payloadByte_withBurst (s : State) (k : Option Nat) (a d : Nat) :
    (s.withBurst k).payloadByte a d = s.payloadByte a d := rfl
@[simp] theorem State.payloadBytes_withBurst (s : State) (k : Option Nat) (a n : Nat) :
    (s.withBurst k).payloadBytes a n = s.payloadBytes a n := rfl
@[simp] theorem State.pixelRead_withBurst (s : State) (k : Option Nat) (g : Segment) :
    (s.withBurst k).pixelRead g = s.pixelRead g := rfl
@[simp] theorem State.granted_withBurst_none (s : State) (left : Nat) : (s.withBurst none).granted left = left := rfl

/-! ## When an operation runs -/

/-- A micro-step answers a next state only where it is the enabled operation. -/
theorem enabledStep_of_exec (hm : isMicroStep i = true) (h : exec i s = .next t) : s.enabledStep = some i := by
  cases i <;> simp [isMicroStep] at hm
  all_goals first
    | exact (State.whenEnabled_eq_next.mp h).1
    | (simp only [exec, execSegLiteral, execSegRepeat] at h
       split at h
       · exact (State.whenEnabled_eq_next.mp h).1
       · cases h)

/-- An enabled operation answers a next state. -/
theorem exec_of_enabled (h : s.enabledStep = some i) : ∃ t, exec i s = .next t := by
  rcases exec_enabled h with ⟨_, _, _, h⟩ | ⟨_, h | h | h | h | ⟨g, b, h⟩ | ⟨g, b, h⟩ | h⟩
  · exact ⟨_, h⟩
  · exact ⟨_, h.2.2⟩
  · exact ⟨_, h.2.2⟩
  · exact ⟨_, h.2.2⟩
  · exact ⟨_, h.2.2.2⟩
  · exact ⟨_, h.2.2.2⟩
  · exact ⟨_, h.2.2.2⟩
  · exact ⟨_, h.2.2⟩

theorem exec_rawBlt_iff :
    exec .rawBlt s = .next t ↔ (s.running = true ∧ s.cPhase = .raw) ∧ t = s.rawCopied := by
  have he : s.enabledStep = some .rawBlt ↔ s.running = true ∧ s.cPhase = .raw := by
    constructor
    · intro he
      rcases State.enabledStep_cases he with
        ⟨_, _, h⟩ | ⟨hr, ⟨_, h⟩ | ⟨_, h⟩ | ⟨h, _⟩ | ⟨_, _, h⟩ | ⟨_, g, _, h⟩ | ⟨_, h⟩⟩ <;> try cases h
      · exact ⟨hr, h⟩
      · rcases decodeSegment_cases g.header with ⟨b, hb⟩ | ⟨b, hb⟩ <;> rw [hb] at h <;> cases h
    · rintro ⟨hr, h⟩; simp [State.enabledStep, hr, h]
  rw [← he]; exact State.whenEnabled_eq_next

theorem exec_segLiteral_iff :
    exec (.segLiteral b c) s = .next t ↔
      ∃ g, s.running = true ∧ s.cPhase = .rle ∧ s.cSeg = some g ∧ decodeSegment g.header = .segLiteral b c ∧
        t = s.literalMoved g c := by
  constructor
  · intro h
    have he := enabledStep_of_exec rfl h
    rcases State.enabledStep_cases he with
      ⟨_, _, h'⟩ | ⟨hr, ⟨_, h'⟩ | ⟨_, h'⟩ | ⟨_, h'⟩ | ⟨_, _, h'⟩ | ⟨hp, g, hg, h'⟩ | ⟨_, h'⟩⟩ <;> try cases h'
    refine ⟨g, hr, hp, hg, h'.symm, ?_⟩
    simp only [exec, execSegLiteral, hg] at h
    exact (State.whenEnabled_eq_next.mp h).2
  · rintro ⟨g, hr, hp, hg, hd, rfl⟩
    simp only [exec, execSegLiteral, hg]
    exact State.whenEnabled_of_enabled (by simp [State.enabledStep, hr, hp, hg, hd])

theorem exec_segRepeat_iff :
    exec (.segRepeat b c) s = .next t ↔
      ∃ g, s.running = true ∧ s.cPhase = .rle ∧ s.cSeg = some g ∧ decodeSegment g.header = .segRepeat b c ∧
        t = s.repeatMoved g c := by
  constructor
  · intro h
    have he := enabledStep_of_exec rfl h
    rcases State.enabledStep_cases he with
      ⟨_, _, h'⟩ | ⟨hr, ⟨_, h'⟩ | ⟨_, h'⟩ | ⟨_, h'⟩ | ⟨_, _, h'⟩ | ⟨hp, g, hg, h'⟩ | ⟨_, h'⟩⟩ <;> try cases h'
    refine ⟨g, hr, hp, hg, h'.symm, ?_⟩
    simp only [exec, execSegRepeat, hg] at h
    exact (State.whenEnabled_eq_next.mp h).2
  · rintro ⟨g, hr, hp, hg, hd, rfl⟩
    simp only [exec, execSegRepeat, hg]
    exact State.whenEnabled_of_enabled (by simp [State.enabledStep, hr, hp, hg, hd])

/-! ## What an operation gives -/

theorem State.checked_eq (s : State) :
    s.checked = { s with
      trace := if s.cAtt then s.trace else s.trace ++ [.errOut .noDst 0#64]
      running := if s.cAtt then s.running else false
      cPhase := if s.cAtt then .loop else .idle } := by
  cases h : s.cAtt <;> simp [State.checked, h, State.raise, State.returned]

/-- Everything the take does (42_decoder R162 to R164, R167). -/
theorem State.taken_eq (s : State) (hne : s.tail ≠ s.head) {v : Slot} (hv : s.slot s.tail = v) {base : Nat}
    (hb : dstOffset v.x v.y s.cStride = base) :
    s.taken = { s with
      cKind := v.kind, cX := v.x, cY := v.y, cLen := v.length, cBase := base, rd := 0, wr := base, cSeg := none, races := []
      cPhase :=
        if v.kind = .rleBlt then .rle else if s.cSize.toNat < base + v.length.toNat then .release else .raw
      trace :=
        if v.kind = .rawBlt ∧ s.cSize.toNat < base + v.length.toNat then
          s.trace ++ [.errOut .dstBounds (BitVec.ofNat 64 (base + v.length.toNat))]
        else s.trace } := by
  subst hv hb
  cases hk : (s.slot s.tail).kind
  · simp only [State.taken, hne, if_false, State.latched, State.dispatched, hk, State.exceedsSurface, State.rawEnd,
      decide_eq_true_eq]
    by_cases hx : s.cSize.toNat < dstOffset (s.slot s.tail).x (s.slot s.tail).y s.cStride + (s.slot s.tail).length.toNat
    · simp [hx, State.raise]
    · simp [hx]
  · simp [State.taken, hne, State.latched, State.dispatched, hk]

theorem State.rawCopied_eq (s : State) {n : Nat} (hn : s.granted (s.cLen.toNat - s.rd) = n) :
    s.rawCopied = { s with
      dst := Memory.surfaceWrites s.cSize.toNat s.dst (s.cBase + s.rd) (s.payloadBytes s.rd n)
      trace := s.trace ++ dstTransactions (s.cBase + s.rd) (s.payloadBytes s.rd n)
      faults := s.faults ++ outOfSurface s.cSize.toNat (s.cBase + s.rd) (s.payloadBytes s.rd n)
      draws := s.draws + n
      rd := s.rd + n
      cPhase := if n = s.cLen.toNat - s.rd then .release else .raw } := by
  subst hn; rfl

theorem State.literalMoved_eq (s : State) (g : Segment) (c : BitVec 6) {n : Nat}
    (hn : s.granted (decodedBytes c - g.moved) = n) :
    s.literalMoved g c = { s with
      dst := Memory.surfaceWrites s.cSize.toNat s.dst (s.wr + g.moved) (s.payloadBytes (s.rd + 1 + g.moved) n)
      trace := s.trace ++ dstTransactions (s.wr + g.moved) (s.payloadBytes (s.rd + 1 + g.moved) n)
      faults := s.faults ++
        outOfSurface s.cSize.toNat (s.wr + g.moved) (s.payloadBytes (s.rd + 1 + g.moved) n)
      draws := s.draws + n
      rd := if g.moved + n = decodedBytes c then s.rd + (1 + decodedBytes c) else s.rd
      wr := if g.moved + n = decodedBytes c then s.wr + decodedBytes c else s.wr
      cSeg := if g.moved + n = decodedBytes c then none else some { g with moved := g.moved + n } } := by
  subst hn
  unfold State.literalMoved State.segmentMoved
  split_ifs with h <;> simp only [h, State.writeDst, State.countReads, if_true, if_false]

theorem State.repeatMoved_eq (s : State) (g : Segment) (c : BitVec 6) {n : Nat} {p : Byte × Byte}
    (hn : s.granted (decodedBytes c - g.moved) = n) (hp : s.pixelRead g = p) :
    s.repeatMoved g c = { s with
      dst := Memory.surfaceWrites s.cSize.toNat s.dst (s.wr + g.moved) (repeatBytes p.1 p.2 g.moved n)
      trace := s.trace ++ dstTransactions (s.wr + g.moved) (repeatBytes p.1 p.2 g.moved n)
      faults := s.faults ++ outOfSurface s.cSize.toNat (s.wr + g.moved) (repeatBytes p.1 p.2 g.moved n)
      draws := s.draws + g.pixelReads
      rd := if g.moved + n = decodedBytes c then s.rd + 3 else s.rd
      wr := if g.moved + n = decodedBytes c then s.wr + decodedBytes c else s.wr
      cSeg :=
        if g.moved + n = decodedBytes c then none else some { g with moved := g.moved + n, pixel := some p } } := by
  subst hn hp
  unfold State.repeatMoved State.segmentMoved
  split_ifs with h <;> simp only [h, State.writeDst, State.countReads, if_true, if_false]

/-! ## Partial moves -/

theorem State.payloadBytes_add (s u : State) (a n k : Nat) (hu : ∀ a d, u.payloadByte a d = s.payloadByte a d)
    (hd : u.draws = s.draws + n) :
    s.payloadBytes a n ++ u.payloadBytes (a + n) k = s.payloadBytes a (n + k) := by
  simp only [State.payloadBytes, hu, hd, List.range_add, List.map_append, List.map_map]
  congr 1
  apply List.map_congr_left
  intro j _
  simp [Nat.add_assoc]

theorem repeatBytes_add (p0 p1 : Byte) (a n k : Nat) :
    repeatBytes p0 p1 a n ++ repeatBytes p0 p1 (a + n) k = repeatBytes p0 p1 a (n + k) := by
  simp only [repeatBytes, List.range_add, List.map_append, List.map_map]
  congr 1
  apply List.map_congr_left
  intro j _
  simp [Nat.add_assoc]

end Sys2Proof.Machine
end

