-- ==== Sys2Proof/Laws/Decode.lean ====
section
/-! SUPPORT. The laws of the fields of the encodings, and what the decoder gives on the bytes of each chunk form. -/

namespace Sys2Proof

/-! ## Header fields -/

theorem u16_halfBytes_le (v : Half) :
    u16 .le (BitVec.ofNat 8 (v.toNat % 256)) (BitVec.ofNat 8 (v.toNat / 256)) = v := by
  apply BitVec.eq_of_toNat_eq
  have := v.isLt
  simp [u16]; omega

theorem u16_halfBytes_be (v : Half) :
    u16 .be (BitVec.ofNat 8 (v.toNat / 256)) (BitVec.ofNat 8 (v.toNat % 256)) = v := by
  apply BitVec.eq_of_toNat_eq
  have := v.isLt
  simp [u16]; omega

theorem halfBytes_u16_le (b0 b1 : Byte) : halfBytes .le (u16 .le b0 b1) = [b0, b1] := by
  have := b0.isLt
  have := b1.isLt
  simp only [halfBytes, u16, BitVec.toNat_ofNat, List.cons.injEq, and_true]
  constructor <;> apply BitVec.eq_of_toNat_eq <;> simp <;> omega

theorem halfBytes_u16_be (b0 b1 : Byte) : halfBytes .be (u16 .be b0 b1) = [b0, b1] := by
  have := b0.isLt
  have := b1.isLt
  simp only [halfBytes, u16, BitVec.toNat_ofNat, List.cons.injEq, and_true]
  constructor <;> apply BitVec.eq_of_toNat_eq <;> simp <;> omega

/-- The two wire bytes of a field read back as the field. -/
theorem halfBytes_eq (e : Endian) (v : Half) : ∃ b0 b1, halfBytes e v = [b0, b1] ∧ u16 e b0 b1 = v := by
  cases e
  · exact ⟨_, _, rfl, u16_halfBytes_le v⟩
  · exact ⟨_, _, rfl, u16_halfBytes_be v⟩

theorem halfBytes_u16 (e : Endian) (b0 b1 : Byte) : halfBytes e (u16 e b0 b1) = [b0, b1] := by
  cases e
  · exact halfBytes_u16_le b0 b1
  · exact halfBytes_u16_be b0 b1

/-! ## Command bytes and kinds -/

theorem isCommand_commandByte : ∀ k : BitVec 7, isCommand (commandByte k) = true := by decide

theorem kindField_commandByte : ∀ k : BitVec 7, kindField (commandByte k) = k := by decide

theorem commandByte_kindField : ∀ c : Byte, isCommand c = true → commandByte (kindField c) = c := by decide

theorem isCommand_iff_msb : ∀ c : Byte, isCommand c = c.msb := by decide

theorem decodeKind_none : ∀ k : BitVec 7, kindIsUnknown k = true ↔ decodeKind k = none := by decide

theorem decodeSegment_encodeSegment : ∀ (b6 : Bool) (c : BitVec 6),
    decodeSegment (encodeSegment false b6 c) = .segLiteral b6 c ∧
      decodeSegment (encodeSegment true b6 c) = .segRepeat b6 c := by
  decide

theorem decodeChunkForm_cmd (e : Endian) (k : BitVec 7) (rest : List Byte) :
    decodeChunkForm e (commandByte k :: rest) = match decodeKind k with
     | none => .startUnknown k rest
     | some k => decodeStart e k rest := by
  simp only [decodeChunkForm, isCommand_commandByte, kindField_commandByte, if_true] <;>
    cases decodeKind k <;> rfl

theorem decodeChunkForm_start (e : Endian) (k : Kind) (x y w h : Half) (p : List Byte) :
    decodeChunkForm e (encodeStart e (kindCode k) x y w h p) =
      match k with | .rawBlt => .startRawBlt x y w h p | .rleBlt => .startRleBlt x y w h p := by
  obtain ⟨x0, x1, hx, hx'⟩ := halfBytes_eq e x
  obtain ⟨y0, y1, hy, hy'⟩ := halfBytes_eq e y
  obtain ⟨w0, w1, hw, hw'⟩ := halfBytes_eq e w
  obtain ⟨h0, h1, hh, hh'⟩ := halfBytes_eq e h
  rw [encodeStart, decodeChunkForm_cmd, hx, hy, hw, hh]
  subst hx' hy' hw' hh'
  cases k <;> rfl

theorem length_encodeStart (e : Endian) (k : BitVec 7) (x y w h : Half) (p : List Byte) :
    (encodeStart e k x y w h p).length = hdrLen + p.length := by
  obtain ⟨x0, x1, hx, hx'⟩ := halfBytes_eq e x
  obtain ⟨y0, y1, hy, hy'⟩ := halfBytes_eq e y
  obtain ⟨w0, w1, hw, hw'⟩ := halfBytes_eq e w
  obtain ⟨h0, h1, hh, hh'⟩ := halfBytes_eq e h
  simp [encodeStart, hx, hy, hw, hh]; omega

theorem decodeChunkForm_cont (e : Endian) (bs : List Byte) (h : firstBitClear bs = true) :
    decodeChunkForm e bs = .cont bs := by
  cases bs with
  | nil => rfl
  | cons c cs =>
    have : isCommand c = false := by rw [isCommand_iff_msb]; simpa [firstBitClear] using h
    simp [decodeChunkForm, this]

theorem decodeStart_short (e : Endian) (k : Kind) (rest : List Byte) (h : rest.length < 8) :
    decodeStart e k rest = match k with | .rawBlt => .startRuntRaw rest | .rleBlt => .startRuntRle rest := by
  unfold decodeStart
  split
  · simp at h; omega
  · rfl

theorem decode_chunk (e : Endian) (bytes : List Byte) (h : bytes.length ≤ maxChunk) :
    decode e .chunk bytes = .ok (decodeChunkForm e bytes) := by
  simp only [decode, decodeChunk]
  rw [if_neg (by omega)]

/-- The form of a chunk the port can carry is well formed. -/
theorem wf_decodeChunkForm (e : Endian) (bs : List Byte) (h : bs.length ≤ 512) :
    (decodeChunkForm e bs).wf = true := by
  cases bs with
  | nil => rfl
  | cons c r =>
    cases hc : isCommand c
    · rw [decodeChunkForm_cont _ _ (by simp [firstBitClear, ← isCommand_iff_msb, hc])]
      simpa [Instr.wf, firstBitClear, ← isCommand_iff_msb, hc] using h
    · have hcc := commandByte_kindField c hc
      generalize kindField c = k at hcc
      subst hcc
      rw [decodeChunkForm_cmd]
      simp only [List.length_cons] at h
      cases hk : decodeKind k with
      | none => simp [Instr.wf, (decodeKind_none k).mpr hk]; omega
      | some kd =>
        rcases r with _ | ⟨x0, _ | ⟨x1, _ | ⟨y0, _ | ⟨y1, _ | ⟨w0, _ | ⟨w1, _ | ⟨h0, _ | ⟨h1, p⟩⟩⟩⟩⟩⟩⟩⟩ <;>
          cases kd <;> simp [decodeStart, Instr.wf, runtRestFits, startPayloadFits]
        all_goals simp at h; omega

end Sys2Proof
end

