-- ==== Sys2Proof/Laws/Agents.lean ====
section
/-! SUPPORT. What a chunk and what a micro-step of the consumer can do, once and whole. -/

namespace Sys2Proof.Machine

variable {s t : State} {i : Instr}

/-- Everything a segment header step can do (42_decoder R169, R175). -/
theorem State.segmentBegun_cases (s : State) :
    (s.cLen.toNat ≤ s.rd ∧ s.segmentBegun = { s with cPhase := .release }) ∨
    (∃ last, s.rd < s.cLen.toNat ∧ s.segmentBegun =
      { s with
        cPhase := .release
        draws := s.draws + 1
        trace := s.trace ++ [.errOut .dstBounds (BitVec.ofNat 64 last)] }) ∨
    ∃ g, s.rd < s.cLen.toNat ∧ g.moved = 0 ∧ g.header = s.payloadByte s.rd s.draws ∧ g.pixel = none ∧
      (s.cfg.rleGuard = true → s.wr + decodedBytes (segCountM1 g.header) ≤ s.cSize.toNat) ∧
      s.segmentBegun = { s with draws := s.draws + 1, cSeg := some g } := by
  unfold State.segmentBegun
  split_ifs with hl
  · exact .inl ⟨hl, rfl⟩
  · simp only
    split_ifs with hg
    · exact .inr (.inl ⟨_, by omega, rfl⟩)
    · refine .inr (.inr ⟨_, by omega, rfl, rfl, rfl, fun hgd => ?_, rfl⟩)
      simpa [hgd, State.exceedsSurface] using hg

/-- Everything a micro-step can do (42_decoder R160). -/
theorem microStep_cases (hm : isMicroStep i = true) (h : exec i s = .next t) :
    s.running = true ∧
      ((s.cPhase = .check ∧ i = .check ∧ t = s.checked) ∨
       (s.cPhase = .loop ∧ i = .take ∧ t = s.taken) ∨
       (s.cPhase = .raw ∧ i = .rawBlt ∧ t = s.rawCopied) ∨
       (s.cPhase = .rle ∧ s.cSeg = none ∧ i = .rleBlt ∧ t = s.segmentBegun) ∨
       (∃ g b, s.cPhase = .rle ∧ s.cSeg = some g ∧ i = .segLiteral b (segCountM1 g.header) ∧
          t = s.literalMoved g (segCountM1 g.header)) ∨
       (∃ g b, s.cPhase = .rle ∧ s.cSeg = some g ∧ i = .segRepeat b (segCountM1 g.header) ∧
          t = s.repeatMoved g (segCountM1 g.header)) ∨
       (s.cPhase = .release ∧ i = .release ∧ t = s.released)) := by
  rcases exec_enabled (enabledStep_of_exec hm h) with ⟨rfl, _⟩ | ⟨hr, hc⟩
  · simp [isMicroStep] at hm
  · refine ⟨hr, ?_⟩
    simpa only [h, Host.Outcome.next.injEq] using hc

/-- A START chunk on the wire is accepted with its fields (40_reassembler R112, R113). -/
theorem exec_encodeStart (s : State) (e : Endian) (k : Kind) (x y w h : Half) (p : List Byte) :
    exec (decodeChunkForm e (encodeStart e (kindCode k) x y w h p)) s = .next (s.acceptStart k x y w h p) := by
  rw [decodeChunkForm_start]
  cases k <;> rfl

/-- Everything a chunk can do (40_reassembler R112 to R118). -/
theorem chunkForm_cases (hc : isChunkForm i = true) (h : exec i s = .next t) :
    (∃ k x y w hh p, t = s.acceptStart k x y w hh p ∧ isAcceptedStart i = true) ∨
    (∃ bs, i = .cont bs ∧ s.drop = false ∧ (s.slot s.head).length.toNat + bs.length ≤ s.cfg.capacity.bytes ∧
      t = s.append bs) ∨
    (∃ e n, t = s.raise e n) ∨
    (s.drop = true ∧ t = s) ∨
    (∃ n, s.drop = false ∧ t = { s.raise .oversize n with drop := true }) := by
  cases i <;> simp [isChunkForm] at hc
  case startRawBlt x y w hh p => exact .inl ⟨_, _, _, _, _, _, by simpa [exec, execStartRawBlt, eq_comm] using h, rfl⟩
  case startRleBlt x y w hh p => exact .inl ⟨_, _, _, _, _, _, by simpa [exec, execStartRleBlt, eq_comm] using h, rfl⟩
  case startRuntRaw => exact .inr (.inr (.inl ⟨_, _, by simpa [exec, execStartRuntRaw, eq_comm] using h⟩))
  case startRuntRle => exact .inr (.inr (.inl ⟨_, _, by simpa [exec, execStartRuntRle, eq_comm] using h⟩))
  case startUnknown => exact .inr (.inr (.inl ⟨_, _, by simpa [exec, execStartUnknown, eq_comm] using h⟩))
  case cont bs =>
    rcases execCont_cases bs s with ⟨hd, h'⟩ | ⟨hd, hl, h'⟩ | ⟨hd, _, h'⟩ <;> rw [exec, h'] at h <;> cases h
    · exact .inr (.inr (.inr (.inl ⟨hd, rfl⟩)))
    · exact .inr (.inl ⟨_, rfl, hd, hl, rfl⟩)
    · exact .inr (.inr (.inr (.inr ⟨_, hd, rfl⟩)))

end Sys2Proof.Machine
end

