-- ==== Sys2Proof/Laws/Outputs.lean ====
section
/-! SUPPORT. What every operation puts out: a run of surface writes and at most one error event; and what a payload read
can give on a Slot race. -/

namespace Sys2Proof.Machine

variable {s t : State} {i : Instr}

/-! ## Outputs -/

/-- The history, the surface and the fault record after an operation that wrote `bytes` from `a` on and then raised
`errs`. -/
structure Outputs (s t : State) (a : Nat) (bytes : List Byte) (errs : List Transaction) : Prop where
  trace : t.trace = s.trace ++ (dstTransactions a bytes ++ errs)
  dst : t.dst = Memory.surfaceWrites s.cSize.toNat s.dst a bytes
  faults : t.faults = s.faults ++ outOfSurface s.cSize.toNat a bytes
  events : ∀ x ∈ errs, ∃ e info, x = .errOut e info
  atMostOne : errs.length ≤ 1

/-- Nothing put out. -/
theorem Outputs.silent (h1 : t.trace = s.trace) (h2 : t.dst = s.dst) (h3 : t.faults = s.faults) :
    Outputs s t 0 [] [] :=
  ⟨by simp [h1, dstTransactions], by simp [h2, Memory.surfaceWrites], by simp [h3, outOfSurface], by simp, by simp⟩

/-- One event and nothing else. -/
theorem Outputs.event {e : ErrorEvent} {info : Info} (h1 : t.trace = s.trace ++ [.errOut e info]) (h2 : t.dst = s.dst)
    (h3 : t.faults = s.faults) : Outputs s t 0 [] [.errOut e info] :=
  ⟨by simp [h1, dstTransactions], by simp [h2, Memory.surfaceWrites], by simp [h3, outOfSurface], by simp, by simp⟩

/-- Writes and nothing else. -/
theorem Outputs.writes {a : Nat} {bytes : List Byte} (h1 : t.trace = s.trace ++ dstTransactions a bytes)
    (h2 : t.dst = Memory.surfaceWrites s.cSize.toNat s.dst a bytes)
    (h3 : t.faults = s.faults ++ outOfSurface s.cSize.toNat a bytes) : Outputs s t a bytes [] :=
  ⟨by simp [h1], h2, h3, by simp, by simp⟩

theorem State.checked_outputs (s : State) : ∃ errs, Outputs s s.checked 0 [] errs := by
  rw [State.checked_eq]
  cases h : s.cAtt
  · exact ⟨_, .event (e := .noDst) (info := 0#64) (by simp) rfl rfl⟩
  · exact ⟨_, .silent (by simp) rfl rfl⟩

theorem State.taken_outputs (s : State) : ∃ errs, Outputs s s.taken 0 [] errs := by
  by_cases he : s.tail = s.head
  · exact ⟨_, .silent (by simp [State.taken, he]) (by simp [State.taken, he]) (by simp [State.taken, he])⟩
  · rw [State.taken_eq s he rfl rfl]
    by_cases hx : (s.slot s.tail).kind = .rawBlt ∧
        s.cSize.toNat < dstOffset (s.slot s.tail).x (s.slot s.tail).y s.cStride + (s.slot s.tail).length.toNat
    · exact ⟨_, .event (e := .dstBounds) (by rw [if_pos hx]) rfl rfl⟩
    · exact ⟨_, .silent (by rw [if_neg hx]) rfl rfl⟩

theorem State.segmentBegun_outputs (s : State) : ∃ errs, Outputs s s.segmentBegun 0 [] errs := by
  rcases State.segmentBegun_cases s with ⟨_, h⟩ | ⟨last, _, h⟩ | ⟨_, _, _, _, _, _, h⟩ <;> rw [h]
  · exact ⟨_, .silent rfl rfl rfl⟩
  · exact ⟨_, .event (e := .dstBounds) rfl rfl rfl⟩
  · exact ⟨_, .silent rfl rfl rfl⟩

theorem State.acceptStart_outputs (s : State) (k : Kind) (x y w h : Half) (p : List Byte) :
    Outputs s (s.acceptStart k x y w h p) 0 [] [] := by
  rw [State.acceptStart_eq]
  exact .silent rfl rfl rfl

theorem State.append_outputs (s : State) (bs : List Byte) : Outputs s (s.append bs) 0 [] [] := by
  rw [State.append_eq]
  exact .silent rfl rfl rfl

/-- Everything an operation puts out; only the copy and the two segment forms write the surface. -/
theorem exec_outputs (h : exec i s = .next t) :
    ∃ a bytes errs, Outputs s t a bytes errs ∧
      (bytes ≠ [] → s.running = true ∧ (s.cPhase = .raw ∧ t = s.rawCopied ∧ a = s.cBase + s.rd ∧
          bytes.length = s.granted (s.cLen.toNat - s.rd) ∨
        ∃ g, s.cPhase = .rle ∧ s.cSeg = some g ∧ a = s.wr + g.moved ∧
          bytes.length = s.granted (decodedBytes (segCountM1 g.header) - g.moved))) := by
  by_cases hc : isChunkForm i = true
  · rcases chunkForm_cases hc h with
      ⟨k, x, y, w, hh', p, rfl, _⟩ | ⟨bs, _, _, _, rfl⟩ | ⟨e, n, rfl⟩ | ⟨_, rfl⟩ | ⟨n, _, rfl⟩
    · exact ⟨_, _, _, State.acceptStart_outputs .., by simp⟩
    · exact ⟨_, _, _, State.append_outputs .., by simp⟩
    · exact ⟨_, _, _, .event (e := e) rfl rfl rfl, by simp⟩
    · exact ⟨_, _, _, .silent rfl rfl rfl, by simp⟩
    · exact ⟨_, _, _, .event (e := .oversize) rfl rfl rfl, by simp⟩
  · by_cases hm : isMicroStep i = true
    · obtain ⟨hr, ⟨hp, _, rfl⟩ | ⟨hp, _, rfl⟩ | ⟨hp, _, rfl⟩ | ⟨hp, _, _, rfl⟩ | ⟨g, b, hp, hg, _, rfl⟩ |
        ⟨g, b, hp, hg, _, rfl⟩ | ⟨hp, _, rfl⟩⟩ := microStep_cases hm h
      · obtain ⟨errs, ho⟩ := s.checked_outputs
        exact ⟨_, _, _, ho, by simp⟩
      · obtain ⟨errs, ho⟩ := s.taken_outputs
        exact ⟨_, _, _, ho, by simp⟩
      · refine ⟨s.cBase + s.rd, s.payloadBytes s.rd (s.granted (s.cLen.toNat - s.rd)), _,
          .writes (by rw [State.rawCopied_eq s rfl]) (by rw [State.rawCopied_eq s rfl])
            (by rw [State.rawCopied_eq s rfl]), fun _ => ⟨hr, .inl ⟨hp, rfl, rfl, by simp⟩⟩⟩
      · obtain ⟨errs, ho⟩ := s.segmentBegun_outputs
        exact ⟨_, _, _, ho, by simp⟩
      · refine ⟨s.wr + g.moved, s.payloadBytes (s.rd + 1 + g.moved) _, _,
          .writes (by rw [State.literalMoved_eq s g _ rfl]) (by rw [State.literalMoved_eq s g _ rfl])
            (by rw [State.literalMoved_eq s g _ rfl]), fun _ => ⟨hr, .inr ⟨g, hp, hg, rfl, by simp⟩⟩⟩
      · refine ⟨s.wr + g.moved, repeatBytes (s.pixelRead g).1 (s.pixelRead g).2 g.moved _, _,
          .writes (by rw [State.repeatMoved_eq s g _ rfl rfl]) (by rw [State.repeatMoved_eq s g _ rfl rfl])
            (by rw [State.repeatMoved_eq s g _ rfl rfl]), fun _ => ⟨hr, .inr ⟨g, hp, hg, rfl, by simp⟩⟩⟩
      · exact ⟨_, _, _, .silent rfl rfl rfl, by simp⟩
    · refine ⟨0, [], [], ?_, by simp⟩
      cases i <;> simp [isChunkForm, isMicroStep] at hc hm
      · cases h; exact .silent rfl rfl rfl
      · cases h; exact .silent rfl rfl rfl
      · obtain ⟨_, rfl⟩ := State.whenEnabled_eq_next.mp h
        exact .silent rfl rfl rfl
      · cases h; exact .silent rfl rfl rfl

/-- Everything a step puts out. -/
theorem step_outputs (h : step s = .next t) : ∃ a bytes errs, Outputs s t a bytes errs := by
  rcases step_cases h with
    ⟨s', o, b, rfl, _, _, _, h⟩ | ⟨_, _, rfl⟩ | ⟨_, _, _, h⟩ | ⟨_, _, _, _, _, rfl⟩ | ⟨_, rfl⟩
  · obtain ⟨a, bytes, errs, ho, _⟩ := exec_outputs h
    exact ⟨a, bytes, errs, ho.trace, ho.dst, ho.faults, ho.events, ho.atMostOne⟩
  · exact ⟨_, _, _, .silent rfl rfl rfl⟩
  · obtain ⟨a, bytes, errs, ho, _⟩ := exec_outputs h
    exact ⟨a, bytes, errs, ho.trace, ho.dst, ho.faults, ho.events, ho.atMostOne⟩
  · exact ⟨_, _, _, .silent rfl rfl rfl⟩
  · exact ⟨_, _, _, .silent rfl rfl rfl⟩

/-! ## Slot races -/

theorem pickByte_mem (v : Byte) (l : List Byte) (d : Nat) : pickByte v l d = v ∨ pickByte v l d ∈ l := by
  have h : Config.racePick d % (l.length + 1) < (v :: l).length := by
    simpa using Nat.mod_lt _ (Nat.succ_pos _)
  have hm : pickByte v l d ∈ v :: l := by
    unfold pickByte
    rw [List.getD_eq_getElem _ _ h]
    exact List.getElem_mem h
  simpa using hm

/-- A payload read below `CAPACITY` gives the stored byte or one an earlier race admits (42_decoder R170). -/
theorem State.payloadByte_mem (s : State) (a d : Nat) (ha : a < s.cfg.capacity.bytes) :
    s.payloadByte a d = storedByte s.tail (s.slot s.tail).payload a ∨ s.payloadByte a d ∈ s.raceValues a := by
  simp only [State.payloadByte, ha, if_true]
  cases s.raceValues a with
  | nil => exact .inl rfl
  | cons v vs => exact pickByte_mem _ _ _

/-- Without a race a payload read gives the stored byte. -/
theorem State.payloadByte_of_no_race (s : State) {a d : Nat} (ha : a < s.cfg.capacity.bytes)
    (hr : ∀ r ∈ s.races, a < r.base ∨ r.base + r.count ≤ a) :
    s.payloadByte a d = storedByte s.tail (s.slot s.tail).payload a := by
  have hv : s.raceValues a = [] := by
    simp only [State.raceValues, List.filterMap_eq_nil_iff]
    intro r hm
    have := hr r hm
    rw [if_neg (by omega)]
  simp [State.payloadByte, ha, hv]

/-- What a write of the producer to the held Slot adds to what a read may give (20_memory R65). -/
theorem State.raceValues_storePayload (s : State) (base : Nat) (bs : List Byte) (a : Nat) (hh : s.holds = true)
    (ht : s.head = s.tail) :
    (s.storePayload base bs).raceValues a =
      s.raceValues a ++
        (if base ≤ a ∧ a < base + bs.length then [storedByte s.tail (s.slot s.tail).payload a] else []) := by
  simp only [State.raceValues, State.storePayload]
  simp [hh, ht, List.filterMap_append, List.filterMap_cons]
  split_ifs <;> simp [*]

end Sys2Proof.Machine
end

