-- ==== Sys2Proof/Laws/Run.lean ====
section
/-! SUPPORT. Runs of several steps, the steps of the internal agents with no input left, and what a turn of the internal
agents leaves to the producer. -/

namespace Sys2Proof.Machine

variable {s t : State} {o : Instr}

/-! ## Runs -/

theorem run_zero (s : State) : Host.Core.run core 0 s = .next s := rfl

theorem run_succ (h : step s = .next t) (n : Nat) : Host.Core.run core (n + 1) s = Host.Core.run core n t := by
  have hc : core.step s = .next t := h
  simp only [Host.Core.run, hc]

theorem run_add (n m : Nat) (h : Host.Core.run core n s = .next t) :
    Host.Core.run core (n + m) s = Host.Core.run core m t := by
  induction n generalizing s with
  | zero => cases h; rw [Nat.zero_add]
  | succ n ih =>
    rw [Nat.succ_add]
    cases hs : step s with
    | next u =>
      rw [run_succ hs] at h ⊢
      exact ih h
    | fault r =>
      have hc : core.step s = .fault r := hs
      simp [Host.Core.run, hc] at h
    | refused r =>
      have hc : core.step s = .refused r := hs
      simp [Host.Core.run, hc] at h

/-! ## Steps with no input left -/

theorem step_eager (hi : s.inputs = []) (he : s.enabledStep = some o) : step s = exec o (s.withBurst none) := by
  rw [step_nil hi, he]

theorem step_invoke (hi : s.inputs = []) (hr : s.running = false) (hp : s.pending = true) :
    step s = .next (s.withBurst none).invoked := by
  have he : s.enabledStep = some .invoke := by simp [State.enabledStep, hr, hp]
  rw [step_eager hi he]
  exact State.whenEnabled_of_enabled he

theorem step_check (hi : s.inputs = []) (hr : s.running = true) (hp : s.cPhase = .check) :
    step s = .next (s.withBurst none).checked := by
  have he : s.enabledStep = some .check := by simp [State.enabledStep, hr, hp]
  rw [step_eager hi he]
  exact State.whenEnabled_of_enabled he

theorem step_take (hi : s.inputs = []) (hr : s.running = true) (hp : s.cPhase = .loop) :
    step s = .next (s.withBurst none).taken := by
  have he : s.enabledStep = some .take := by simp [State.enabledStep, hr, hp]
  rw [step_eager hi he]
  exact State.whenEnabled_of_enabled he

theorem step_rawBlt (hi : s.inputs = []) (hr : s.running = true) (hp : s.cPhase = .raw) :
    step s = .next (s.withBurst none).rawCopied := by
  have he : s.enabledStep = some .rawBlt := by simp [State.enabledStep, hr, hp]
  rw [step_eager hi he]
  exact State.whenEnabled_of_enabled he

theorem step_rleBlt (hi : s.inputs = []) (hr : s.running = true) (hp : s.cPhase = .rle) (hs : s.cSeg = none) :
    step s = .next (s.withBurst none).segmentBegun := by
  have he : s.enabledStep = some .rleBlt := by simp [State.enabledStep, hr, hp, hs]
  rw [step_eager hi he]
  exact State.whenEnabled_of_enabled he

theorem decodeSegment_eq : ∀ h : Byte,
    decodeSegment h =
      if h.getLsbD 7 then .segRepeat (h.getLsbD 6) (segCountM1 h) else .segLiteral (h.getLsbD 6) (segCountM1 h) := by
  decide

theorem step_segment {g : Segment} (hi : s.inputs = []) (hr : s.running = true) (hp : s.cPhase = .rle)
    (hs : s.cSeg = some g) :
    step s = .next
      (if g.header.getLsbD 7 then (s.withBurst none).repeatMoved g (segCountM1 g.header)
        else (s.withBurst none).literalMoved g (segCountM1 g.header)) := by
  have hd := decodeSegment_eq g.header
  rw [step_eager hi (by simp only [State.enabledStep, hr, hp, hs, if_true]; rfl), hd]
  split_ifs at hd ⊢
  · exact exec_segRepeat_iff.mpr ⟨g, hr, hp, hs, hd, rfl⟩
  · exact exec_segLiteral_iff.mpr ⟨g, hr, hp, hs, hd, rfl⟩

theorem step_release (hi : s.inputs = []) (hr : s.running = true) (hp : s.cPhase = .release) :
    step s = .next (s.withBurst none).released := by
  have he : s.enabledStep = some .release := by simp [State.enabledStep, hr, hp]
  rw [step_eager hi he]
  exact State.whenEnabled_of_enabled he

/-! ## Steps with a chunk -/

theorem step_encodeStart {rest : List Input} (k : Kind) (x y w h : Half) (p : List Byte) (hl : hdrLen + p.length ≤ maxChunk)
    (hi : s.inputs = .chunk (encodeStart s.cfg.hdrEndian (kindCode k) x y w h p) :: rest) :
    step s = .next ((s.withInputs rest).acceptStart k x y w h p) := by
  rw [step_chunk hi, if_neg (by rw [length_encodeStart]; omega), exec_encodeStart]

/-! ## Turns of the internal agents -/

/-- What the producer reads and writes is the same in both states. -/
structure SameProducer (s t : State) : Prop where
  slot0 : t.slot0 = s.slot0
  slot1 : t.slot1 = s.slot1
  head : t.head = s.head
  drop : t.drop = s.drop
  cfg : t.cfg = s.cfg

theorem SameProducer.refl (s : State) : SameProducer s s := ⟨rfl, rfl, rfl, rfl, rfl⟩

theorem SameProducer.trans {u : State} (h : SameProducer s t) (h' : SameProducer t u) : SameProducer s u :=
  ⟨h'.slot0.trans h.slot0, h'.slot1.trans h.slot1, h'.head.trans h.head, h'.drop.trans h.drop, h'.cfg.trans h.cfg⟩

theorem SameProducer.slot (h : SameProducer s t) (i : SlotIdx) : t.slot i = s.slot i := by
  simp [State.slot, h.slot0, h.slot1]

/-- An internal operation leaves the producer and the inputs alone. -/
theorem exec_enabled_frame (he : s.enabledStep = some o) (h : exec o s = .next t) :
    SameProducer s t ∧ t.inputs = s.inputs := by
  rcases exec_enabled he with ⟨rfl, hr, hp, h'⟩ | ⟨hr, hcs⟩
  · rw [h'] at h
    cases h
    exact ⟨⟨rfl, rfl, rfl, rfl, rfl⟩, rfl⟩
  · rw [h] at hcs
    simp only [Host.Outcome.next.injEq] at hcs
    rcases hcs with ⟨_, _, rfl⟩ | ⟨_, _, rfl⟩ | ⟨_, _, rfl⟩ | ⟨_, _, _, rfl⟩ | ⟨_, _, _, _, _, rfl⟩ |
      ⟨_, _, _, _, _, rfl⟩ | ⟨_, _, rfl⟩
    · rw [State.checked_eq]; exact ⟨⟨rfl, rfl, rfl, rfl, rfl⟩, rfl⟩
    · by_cases he : s.tail = s.head
      · rw [State.taken, if_pos he]; exact ⟨⟨rfl, rfl, rfl, rfl, rfl⟩, rfl⟩
      · rw [State.taken_eq s he rfl rfl]; exact ⟨⟨rfl, rfl, rfl, rfl, rfl⟩, rfl⟩
    · exact ⟨⟨rfl, rfl, rfl, rfl, rfl⟩, rfl⟩
    · rcases State.segmentBegun_cases s with ⟨_, h⟩ | ⟨_, _, h⟩ | ⟨_, _, _, _, _, _, h⟩ <;> rw [h] <;>
        exact ⟨⟨rfl, rfl, rfl, rfl, rfl⟩, rfl⟩
    · rw [State.literalMoved_eq s _ _ rfl]; exact ⟨⟨rfl, rfl, rfl, rfl, rfl⟩, rfl⟩
    · rw [State.repeatMoved_eq s _ _ rfl rfl]; exact ⟨⟨rfl, rfl, rfl, rfl, rfl⟩, rfl⟩
    · exact ⟨⟨rfl, rfl, rfl, rfl, rfl⟩, rfl⟩

/-- A turn always goes on, and leaves the producer alone. -/
theorem step_turn_frame {b : Option Nat} {rest : List Input} (h : s.inputs = .turn b :: rest) :
    ∃ t, step s = .next t ∧ t.inputs = rest ∧ SameProducer s t := by
  rw [step_turn h]
  cases he : s.enabledStep with
  | none => exact ⟨_, rfl, rfl, rfl, rfl, rfl, rfl, rfl⟩
  | some o =>
    obtain ⟨t, ht⟩ := exec_of_enabled (s := (s.withInputs rest).withBurst b) (i := o) he
    obtain ⟨hs, hi⟩ := exec_enabled_frame (s := (s.withInputs rest).withBurst b) he ht
    exact ⟨t, ht, hi, hs.slot0, hs.slot1, hs.head, hs.drop, hs.cfg⟩

end Sys2Proof.Machine
end

