-- ==== Sys2Proof/Laws/Invariant.lean ====
section
/-! SUPPORT. Each shared operation keeps the invariant of the pipeline (Sys2Proof/Safety.lean). -/

namespace Sys2Proof.Machine

variable {s : State}

theorem State.Inv.slot (h : s.Inv) (i : SlotIdx) : Slot.Inv s.cfg.capacity.bytes (s.slot i) :=
  State.forall_slot.mpr ⟨h.1.1, h.1.2.1⟩ i

theorem State.Inv.withInputs (h : s.Inv) (l : List Input) : (s.withInputs l).Inv := h

theorem State.Inv.withBurst (h : s.Inv) (b : Option Nat) : (s.withBurst b).Inv := h

theorem State.Inv.withSurface (h : s.Inv) (a : Bool) (b c : Word) : (s.withSurface a b c).Inv := h

/-- Outside phase `RLE` no segment is in progress. -/
theorem State.Inv.no_segment (h : s.Inv) (hp : s.cPhase ≠ .rle) : s.cSeg = none := by
  cases hs : s.cSeg with
  | none => rfl
  | some g => exact absurd (h.2.2.2.2.2 g hs).1 hp

theorem decodedBytes_bounds (c : BitVec 6) : 2 ≤ decodedBytes c ∧ decodedBytes c ≤ 128 := by
  have := c.isLt
  simp [decodedBytes, pixelCount]
  omega

/-! ## The producer -/

theorem State.Inv.setSlot (h : s.Inv) (i : SlotIdx) (v : Slot) (hv : Slot.Inv s.cfg.capacity.bytes v) :
    Slot.Inv s.cfg.capacity.bytes (s.setSlot i v).slot0 ∧ Slot.Inv s.cfg.capacity.bytes (s.setSlot i v).slot1 := by
  by_cases hz : i = 0 <;> simp only [State.setSlot, hz, if_true, if_false] <;>
    first | exact ⟨hv, h.1.2.1⟩ | exact ⟨h.1.1, hv⟩

theorem State.storePayload_races_of_not_holds (s : State) (a : Nat) (bs : List Byte) (hh : s.holds = false) :
    (s.storePayload a bs).races = s.races := by
  simp [State.storePayload, hh]

theorem State.Inv.acceptStart (h : s.Inv) (k : Kind) (x y w hh : Half) (p : List Byte)
    (hl : hdrLen + p.length ≤ maxChunk) : (s.acceptStart k x y w hh p).Inv := by
  have hlo := s.cfg.capacity.atLeast
  have hhi := s.cfg.capacity.atMost
  simp only [hdrLen, maxChunk] at hl
  obtain ⟨hw, hb, _⟩ := h.slot s.head
  have hs := h.setSlot s.head
    { kind := k, x := x, y := y, width := w, height := hh, length := BitVec.ofNat 32 p.length
      payload := Memory.writeBytes (s.slot s.head).payload 0 p }
    ⟨Memory.wf_writeBytes _ hw, Memory.within_writeBytes _ hb (by omega), by simp; omega⟩
  obtain ⟨hm, hp, hold, hraw, hrle, hseg⟩ := h
  rw [State.acceptStart_eq]
  exact ⟨⟨hs.1, hs.2, hm.2.2⟩, hp,
    ⟨hold.1, fun hn => (State.storePayload_races_of_not_holds s _ _ hn).trans (hold.2 hn)⟩, hraw, hrle, hseg⟩

theorem State.Inv.append (h : s.Inv) (bs : List Byte)
    (hl : (s.slot s.head).length.toNat + bs.length ≤ s.cfg.capacity.bytes) : (s.append bs).Inv := by
  have hhi := s.cfg.capacity.atMost
  obtain ⟨hw, hb, _⟩ := h.slot s.head
  have hs := h.setSlot s.head
    { s.slot s.head with
      length := BitVec.ofNat 32 ((s.slot s.head).length.toNat + bs.length)
      payload := Memory.writeBytes (s.slot s.head).payload (s.slot s.head).length.toNat bs }
    ⟨Memory.wf_writeBytes _ hw, Memory.within_writeBytes _ hb hl, by simp; omega⟩
  obtain ⟨hm, hp, hold, hraw, hrle, hseg⟩ := h
  rw [State.append_eq]
  exact ⟨⟨hs.1, hs.2, hm.2.2⟩, hp,
    ⟨hold.1, fun hn => (State.storePayload_races_of_not_holds s _ _ hn).trans (hold.2 hn)⟩, hraw, hrle, hseg⟩

/-! ## Reset and the scheduler -/

theorem State.Inv.resetRegisters (h : s.Inv) : s.resetRegisters.Inv := by
  obtain ⟨⟨h0, h1, h2⟩, _⟩ := h
  refine ⟨⟨⟨h0.1, h0.2.1, by simp [State.resetRegisters, Slot.cleared]⟩,
    ⟨h1.1, h1.2.1, by simp [State.resetRegisters, Slot.cleared]⟩, h2⟩, ?_⟩
  simp [State.PhaseInv, State.HoldingInv, State.RawInv, State.RleInv, State.SegmentInv, State.resetRegisters,
    State.holds]

theorem State.Inv.invoked (h : s.Inv) (hr : s.running = false) : s.invoked.Inv := by
  have hph := h.2.1.1.mp hr
  have hns := h.no_segment (by simp [hph])
  have hra := h.2.2.1.2 (by simp [State.holds, hph])
  refine ⟨h.1, ?_, ?_, ?_, ?_, ?_⟩ <;>
    simp [State.PhaseInv, State.HoldingInv, State.RawInv, State.RleInv, State.SegmentInv, State.holds, State.invoked,
      hra, hns]

theorem State.Inv.released (h : s.Inv) (hr : s.running = true) (hp : s.cPhase = .release) : s.released.Inv := by
  have hns := h.no_segment (by simp [hp])
  have ha := h.2.1.2 (by simp [hp]) (by simp [hp])
  refine ⟨h.1, ?_, ?_, ?_, ?_, ?_⟩ <;>
    simp [State.PhaseInv, State.HoldingInv, State.RawInv, State.RleInv, State.SegmentInv, State.holds, State.released,
      hr, hns, ha]

/-! ## The consumer -/

theorem State.Inv.checked (h : s.Inv) (hr : s.running = true) (hp : s.cPhase = .check) : s.checked.Inv := by
  have hns := h.no_segment (by simp [hp])
  have hra := h.2.2.1.2 (by simp [State.holds, hp])
  rw [State.checked_eq]
  refine ⟨h.1, ?_, ?_, ?_, ?_, ?_⟩ <;> cases s.cAtt <;>
    simp [State.PhaseInv, State.HoldingInv, State.RawInv, State.RleInv, State.SegmentInv, State.holds, hr, hns, hra]

theorem State.Inv.taken (h : s.Inv) (hr : s.running = true) (hp : s.cPhase = .loop) : s.taken.Inv := by
  have hns := h.no_segment (by simp [hp])
  have hra := h.2.2.1.2 (by simp [State.holds, hp])
  have ha := h.2.1.2 (by simp [hp]) (by simp [hp])
  have hl := (h.slot s.tail).2.2
  by_cases heq : s.tail = s.head
  · rw [State.taken, if_pos heq]
    refine ⟨h.1, ?_, ?_, ?_, ?_, ?_⟩ <;>
      simp [State.PhaseInv, State.HoldingInv, State.RawInv, State.RleInv, State.SegmentInv, State.holds,
        State.returned, hns, hra]
  · rw [State.taken_eq s heq rfl rfl]
    refine ⟨h.1, ?_, ?_, ?_, ?_, ?_⟩
    · simp [State.PhaseInv, hr, ha]; split_ifs <;> simp
    · simp [State.HoldingInv, hl]
    · cases hk : (s.slot s.tail).kind <;> simp [State.RawInv, State.rawEnd]
    · cases hk : (s.slot s.tail).kind
      · simp [State.RleInv]; split_ifs <;> simp
      · simp [State.RleInv]
    · simp [State.SegmentInv]

theorem State.Inv.rawCopied (h : s.Inv) (hr : s.running = true) (hp : s.cPhase = .raw) : s.rawCopied.Inv := by
  have hns := h.no_segment (by simp [hp])
  have hle := State.granted_le s (s.cLen.toNat - s.rd)
  obtain ⟨hm, hph, hold, hraw, _, _⟩ := h
  have hra := hold.1 (by simp [State.holds, hp])
  have hrw := hraw hp
  have ha := hph.2 (by simp [hp]) (by simp [hp])
  rw [State.rawCopied_eq s rfl]
  refine ⟨⟨hm.1, hm.2.1, Memory.wf_surfaceWrites _ hm.2.2⟩, ?_, ⟨fun _ => hra, fun hn => ?_⟩, fun _ => ?_, fun hn => ?_,
    fun g hg => ?_⟩
  · simp [State.PhaseInv, hr, ha]; split_ifs <;> simp
  · simp [State.holds] at hn; split_ifs at hn
  · exact ⟨hrw.1, hrw.2.1, by have := hrw.2.2; simp only; omega⟩
  · simp only at hn; split_ifs at hn
  · simp [hns] at hg

theorem State.Inv.segmentBegun (h : s.Inv) (hr : s.running = true) (hp : s.cPhase = .rle) (hs : s.cSeg = none) :
    s.segmentBegun.Inv := by
  obtain ⟨hm, hph, hold, hraw, hrle, hseg⟩ := h
  have ha := hph.2 (by simp [hp]) (by simp [hp])
  have hra := hold.1 (by simp [State.holds, hp])
  rcases State.segmentBegun_cases s with ⟨_, h⟩ | ⟨_, _, h⟩ | ⟨g, hl, h0, hh, hpx, hgd, h⟩ <;> rw [h]
  · refine ⟨hm, ?_, ⟨fun _ => hra, fun hn => ?_⟩, ?_, ?_, ?_⟩ <;>
      simp_all [State.PhaseInv, State.RawInv, State.RleInv, State.SegmentInv, State.holds]
  · refine ⟨hm, ?_, ⟨fun _ => hra, fun hn => ?_⟩, ?_, ?_, ?_⟩ <;>
      simp_all [State.PhaseInv, State.RawInv, State.RleInv, State.SegmentInv, State.holds]
  · refine ⟨hm, hph, hold, hraw, hrle, fun g' hg' => ?_⟩
    obtain rfl : g = g' := by simpa using hg'
    have hd := decodedBytes_bounds (segCountM1 g.header)
    exact ⟨hp, hl, by omega, hgd⟩

theorem State.Inv.literalMoved (h : s.Inv) (hp : s.cPhase = .rle) {g : Segment} (hg : s.cSeg = some g) :
    (s.literalMoved g (segCountM1 g.header)).Inv := by
  obtain ⟨hm, hph, hold, _, hrle, hseg⟩ := h
  obtain ⟨_, hl, hmv, hgd⟩ := hseg g hg
  have hrl := hrle hp
  have hle := State.granted_le s (decodedBytes (segCountM1 g.header) - g.moved)
  have hd := decodedBytes_bounds (segCountM1 g.header)
  rw [State.literalMoved_eq s g _ rfl]
  refine ⟨⟨hm.1, hm.2.1, Memory.wf_surfaceWrites _ hm.2.2⟩, hph, hold, fun hn => absurd (hp.symm.trans hn) (by simp),
    fun _ => ⟨hrl.1, ?_⟩, fun g' hg' => ?_⟩
  · simp only; split_ifs <;> omega
  · simp only at hg'
    split_ifs at hg' with hx
    obtain rfl := Option.some.inj hg'
    refine ⟨hp, ?_, ?_, ?_⟩ <;> simp only [hx, if_false]
    · exact hl
    · omega
    · exact hgd

theorem State.Inv.repeatMoved (h : s.Inv) (hp : s.cPhase = .rle) {g : Segment} (hg : s.cSeg = some g) :
    (s.repeatMoved g (segCountM1 g.header)).Inv := by
  obtain ⟨hm, hph, hold, _, hrle, hseg⟩ := h
  obtain ⟨_, hl, hmv, hgd⟩ := hseg g hg
  have hrl := hrle hp
  have hle := State.granted_le s (decodedBytes (segCountM1 g.header) - g.moved)
  have hd := decodedBytes_bounds (segCountM1 g.header)
  rw [State.repeatMoved_eq s g _ rfl rfl]
  refine ⟨⟨hm.1, hm.2.1, Memory.wf_surfaceWrites _ hm.2.2⟩, hph, hold, fun hn => absurd (hp.symm.trans hn) (by simp),
    fun _ => ⟨hrl.1, ?_⟩, fun g' hg' => ?_⟩
  · simp only; split_ifs <;> omega
  · simp only at hg'
    split_ifs at hg' with hx
    obtain rfl := Option.some.inj hg'
    refine ⟨hp, ?_, ?_, ?_⟩ <;> simp only [hx, if_false]
    · exact hl
    · omega
    · exact hgd

end Sys2Proof.Machine
end

