-- ==== Sys2Proof/Laws/PerInstr.lean ====
section
/-! SUPPORT. A law of every instruction as syntax, one lemma per constructor: an encoding has a length its space admits
(30_encoding R80, R84, R94). -/

namespace Sys2Proof.Laws.EncodedLength

/-- The encoding of a well-formed operation has at most `MAX_CHUNK` bytes in the chunk space and exactly one byte in the
other two. -/
def Statement (i : Instr) : Prop :=
  ∀ (e : Endian) (sp : Space) (bytes : List Byte), i.wf = true → encode e i = some (sp, bytes) →
    match sp with
    | .chunk => bytes.length ≤ maxChunk
    | .slotKind => bytes.length = 1
    | .segment => bytes.length = 1

theorem startRawBlt (x : Half) (y : Half) (width : Half) (height : Half) (payload : List Byte) : Statement (.startRawBlt x y width height payload) := by
  intro e sp bytes hwf henc
  simp only [encode, Option.some.injEq, Prod.mk.injEq] at henc
  obtain ⟨rfl, rfl⟩ := henc
  simpa [Instr.wf, startPayloadFits, length_encodeStart] using hwf

theorem startRleBlt (x : Half) (y : Half) (width : Half) (height : Half) (payload : List Byte) : Statement (.startRleBlt x y width height payload) := by
  intro e sp bytes hwf henc
  simp only [encode, Option.some.injEq, Prod.mk.injEq] at henc
  obtain ⟨rfl, rfl⟩ := henc
  simpa [Instr.wf, startPayloadFits, length_encodeStart] using hwf

theorem startRuntRaw (rest : List Byte) : Statement (.startRuntRaw rest) := by
  intro e sp bytes hwf henc
  simp only [encode, Option.some.injEq, Prod.mk.injEq] at henc
  obtain ⟨rfl, rfl⟩ := henc
  simp [Instr.wf, runtRestFits] at hwf ⊢
  omega

theorem startRuntRle (rest : List Byte) : Statement (.startRuntRle rest) := by
  intro e sp bytes hwf henc
  simp only [encode, Option.some.injEq, Prod.mk.injEq] at henc
  obtain ⟨rfl, rfl⟩ := henc
  simp [Instr.wf, runtRestFits] at hwf ⊢
  omega

theorem startUnknown (kind : BitVec 7) (rest : List Byte) : Statement (.startUnknown kind rest) := by
  intro e sp bytes hwf henc
  simp only [encode, Option.some.injEq, Prod.mk.injEq] at henc
  obtain ⟨rfl, rfl⟩ := henc
  simp [Instr.wf] at hwf ⊢
  omega

theorem cont (bytes : List Byte) : Statement (.cont bytes) := by
  intro e sp bytes hwf henc
  simp only [encode, Option.some.injEq, Prod.mk.injEq] at henc
  obtain ⟨rfl, rfl⟩ := henc
  simp [Instr.wf] at hwf ⊢
  omega

theorem commit : Statement .commit := by
  intro e sp bytes _ henc
  cases henc

theorem signal : Statement .signal := by
  intro e sp bytes _ henc
  cases henc

theorem invoke : Statement .invoke := by
  intro e sp bytes _ henc
  cases henc

theorem check : Statement .check := by
  intro e sp bytes _ henc
  cases henc

theorem take : Statement .take := by
  intro e sp bytes _ henc
  cases henc

theorem rawBlt : Statement .rawBlt := by
  intro e sp bytes _ henc
  simp only [encode, Option.some.injEq, Prod.mk.injEq] at henc
  obtain ⟨rfl, rfl⟩ := henc
  rfl

theorem rleBlt : Statement .rleBlt := by
  intro e sp bytes _ henc
  simp only [encode, Option.some.injEq, Prod.mk.injEq] at henc
  obtain ⟨rfl, rfl⟩ := henc
  rfl

theorem segLiteral (bit6 : Bool) (countM1 : BitVec 6) : Statement (.segLiteral bit6 countM1) := by
  intro e sp bytes _ henc
  simp only [encode, Option.some.injEq, Prod.mk.injEq] at henc
  obtain ⟨rfl, rfl⟩ := henc
  rfl

theorem segRepeat (bit6 : Bool) (countM1 : BitVec 6) : Statement (.segRepeat bit6 countM1) := by
  intro e sp bytes _ henc
  simp only [encode, Option.some.injEq, Prod.mk.injEq] at henc
  obtain ⟨rfl, rfl⟩ := henc
  rfl

theorem release : Statement .release := by
  intro e sp bytes _ henc
  cases henc

theorem reset : Statement .reset := by
  intro e sp bytes _ henc
  cases henc

end Sys2Proof.Laws.EncodedLength
end

