-- ==== Sys2Proof/Tests/Slice0.lean ====
section
/-! SUPPORT. The model's own tests: the well-formedness smoke test, words written out from the encodings of 30_encoding and
the vectors of 95_test_vectors, one step of each operation, and a witness for the hypotheses of each statement. -/

namespace Sys2Proof.Tests

open Sys2Proof Sys2Proof.Machine

/-! ## States to test on -/

/-- The predicate holds of the next state. -/
def onNext (o : Host.Outcome State Fault Refusal) (p : State → Bool) : Bool :=
  match o with
  | .next t => p t
  | .fault _ => false
  | .refused _ => false

/-- Idle, with the surface of 95_test_vectors section 0. -/
def surfaced : State := State.reset.withSurface true 153600#32 5120#32

/-- An invocation in that phase, on that surface. -/
def inPhase (phase : Phase) : State :=
  { surfaced with running := true, cPhase := phase, cAtt := true, cSize := 153600#32, cStride := 5120#32 }

/-- A Slot of a message. -/
def slotOf (k : Kind) (x y : Half) (payload : List Byte) : Slot :=
  { kind := k, x := x, y := y, width := 1#16, height := 1#16, length := BitVec.ofNat 32 payload.length
    payload := Memory.writeBytes [] 0 payload }

/-- The loop test with that message committed. -/
def committed (k : Kind) (x y : Half) (payload : List Byte) : State :=
  { inPhase .loop with slot0 := slotOf k x y payload, head := 1 }

/-- That message is held, at offset `base`. -/
def holding (phase : Phase) (k : Kind) (base : Nat) (payload : List Byte) : State :=
  { inPhase phase with
    slot0 := slotOf k 0#16 0#16 payload
    head := 1
    cKind := k
    cLen := BitVec.ofNat 32 payload.length
    cBase := base
    wr := base }

/-- A segment with that header is in progress. -/
def expanding (base : Nat) (header : Byte) (payload : List Byte) : State :=
  { holding .rle .rleBlt base payload with cSeg := some { header := header, moved := 0, pixel := none } }

/-- An unfinished message of that length in `slot[0]`. -/
def unfinished (length : Word) : State := { surfaced with slot0 := { Slot.cleared [] with length := length } }

/-! ## Well-formedness: each check refuses an ill-formed term -/

theorem test_wf_start_raw_payload : (Instr.startRawBlt 0#16 0#16 0#16 0#16 (List.replicate 504 0#8)).wf = false := by
  simp only [Instr.wf, startPayloadFits, List.length_replicate]; decide

theorem test_wf_start_raw_full : (Instr.startRawBlt 0#16 0#16 0#16 0#16 (List.replicate 503 0#8)).wf = true := by
  simp only [Instr.wf, startPayloadFits, List.length_replicate]; decide

theorem test_wf_start_rle_payload : (Instr.startRleBlt 0#16 0#16 0#16 0#16 (List.replicate 504 0#8)).wf = false := by
  simp only [Instr.wf, startPayloadFits, List.length_replicate]; decide

theorem test_wf_runt_raw : (Instr.startRuntRaw (List.replicate 8 0#8)).wf = false := by decide

theorem test_wf_runt_rle : (Instr.startRuntRle (List.replicate 8 0#8)).wf = false := by decide

theorem test_wf_unknown_kind_raw : (Instr.startUnknown 1#7 []).wf = false := by decide

theorem test_wf_unknown_kind_rle : (Instr.startUnknown 2#7 []).wf = false := by decide

theorem test_wf_unknown_length : (Instr.startUnknown 3#7 (List.replicate 512 0#8)).wf = false := by
  simp only [Instr.wf, List.length_replicate]; decide

theorem test_wf_cont_first_bit : (Instr.cont [0x80#8]).wf = false := by decide

theorem test_wf_cont_length : (Instr.cont (List.replicate 513 0#8)).wf = false := by
  simp only [Instr.wf, List.length_replicate]; decide

/-! ## Decoding: words written out from 30_encoding and 95_test_vectors section 2 -/

/-- Vector E1. -/
theorem test_decode_start_raw :
    decode .le .chunk [0x81#8, 0x02#8, 0x00#8, 0x01#8, 0x00#8, 0x03#8, 0x00#8, 0x04#8, 0x00#8] =
      .ok (.startRawBlt 2#16 1#16 3#16 4#16 []) := by decide

/-- Vector E10. -/
theorem test_decode_start_raw_big_endian :
    decode .be .chunk [0x81#8, 0x00#8, 0x05#8, 0x00#8, 0x03#8, 0x00#8, 0x40#8, 0x00#8, 0x01#8] =
      .ok (.startRawBlt 5#16 3#16 64#16 1#16 []) := by decide

/-- Vector E10, the other byte order. -/
theorem test_decode_start_raw_wrong_order :
    decode .le .chunk [0x81#8, 0x00#8, 0x05#8, 0x00#8, 0x03#8, 0x00#8, 0x40#8, 0x00#8, 0x01#8] =
      .ok (.startRawBlt 1280#16 768#16 16384#16 256#16 []) := by decide

/-- Vector S-C. -/
theorem test_decode_start_rle :
    decode .le .chunk
        [0x82#8, 0x05#8, 0x00#8, 0x03#8, 0x00#8, 0x40#8, 0x00#8, 0x01#8, 0x00#8, 0xBF#8, 0xCD#8, 0xAB#8] =
      .ok (.startRleBlt 5#16 3#16 64#16 1#16 [0xBF#8, 0xCD#8, 0xAB#8]) := by decide

/-- Vector E5. -/
theorem test_decode_runt_raw :
    decode .le .chunk [0x81#8, 0x00#8, 0x00#8, 0x00#8] = .ok (.startRuntRaw [0x00#8, 0x00#8, 0x00#8]) := by decide

/-- Vector E6. -/
theorem test_decode_runt_rle : decode .le .chunk [0x82#8] = .ok (.startRuntRle []) := by decide

/-- Vector E7, one byte short of a header. -/
theorem test_decode_runt_rle_longest :
    decode .le .chunk [0x82#8, 0#8, 0#8, 0#8, 0#8, 0#8, 0#8, 0#8] =
      .ok (.startRuntRle [0#8, 0#8, 0#8, 0#8, 0#8, 0#8, 0#8]) := by decide

/-- Vector E2: kind 0 is unknown, and tested before the length. -/
theorem test_decode_unknown_zero : decode .le .chunk [0x80#8] = .ok (.startUnknown 0x00#7 []) := by decide

/-- Vector E3. -/
theorem test_decode_unknown_three :
    decode .le .chunk [0x83#8, 0x00#8, 0x00#8] = .ok (.startUnknown 0x03#7 [0x00#8, 0x00#8]) := by decide

/-- Vector E8. -/
theorem test_decode_empty_chunk : decode .le .chunk [] = .ok (.cont []) := by decide

/-- Vector E9. -/
theorem test_decode_cont : decode .le .chunk [0x7F#8, 0x01#8, 0x02#8] = .ok (.cont [0x7F#8, 0x01#8, 0x02#8]) := by decide

/-- 30_encoding R80: a chunk has at most 512 bytes. -/
theorem test_decode_chunk_too_long : decode .le .chunk (List.replicate 513 0#8) = .error .chunkTooLong := by
  simp only [decode, decodeChunk, List.length_replicate]; decide

/-- 30_encoding R84. -/
theorem test_decode_kind_raw : decode .le .slotKind [0x01#8] = .ok .rawBlt := by decide

theorem test_decode_kind_rle : decode .le .slotKind [0x02#8] = .ok .rleBlt := by decide

/-- 30_encoding R84: no other kind is in a Slot. -/
theorem test_decode_kind_other : decode .le .slotKind [0x03#8] = .error .noSuchKind := by decide

/-- Vector L1, first segment. -/
theorem test_decode_segment_literal : decode .le .segment [0x01#8] = .ok (.segLiteral false 1#6) := by decide

/-- Vector L2: bit 6 is carried and changes no count. -/
theorem test_decode_segment_repeat_bit6 : decode .le .segment [0xC2#8] = .ok (.segRepeat true 2#6) := by decide

/-- Vector L5: A3 is a repeat of 36 pixels. -/
theorem test_decode_segment_repeat_count :
    decode .le .segment [0xA3#8] = .ok (.segRepeat false 35#6) ∧ pixelCount 35#6 = 36 := by decide

theorem test_decode_segment_two_bytes : decode .le .segment [0x00#8, 0x00#8] = .error .notOneByte := by decide

/-- spec/opcode_table.json: rows of the three spaces, by word. -/
theorem test_table_words :
    decodeTableWord 8 0x81 = some (.startRawBlt 0#16 0#16 0#16 0#16 []) ∧
      decodeTableWord 8 0x82 = some (.startRleBlt 0#16 0#16 0#16 0#16 []) ∧
      decodeTableWord 8 0x01 = some .rawBlt ∧ decodeTableWord 8 0x02 = some .rleBlt := by decide

/-! ## One step of each operation -/

/-- Vector E1: the header's fields, an empty payload, the commit. -/
theorem test_start_raw :
    onNext (exec (.startRawBlt 2#16 1#16 3#16 4#16 []) surfaced) (fun t =>
      t.slot0 == { kind := .rawBlt, x := 2#16, y := 1#16, width := 3#16, height := 4#16, length := 0#32, payload := [] } &&
        t.head == 1 && t.pending && t.slot1 == surfaced.slot1) = true := by decide

/-- Vector S-C, step 1. -/
theorem test_start_rle :
    onNext (exec (.startRleBlt 5#16 3#16 64#16 1#16 [0xBF#8, 0xCD#8, 0xAB#8]) surfaced) (fun t =>
      t.slot0.kind == .rleBlt && t.slot0.length == 3#32 &&
        t.slot0.payload == [(0, 0xBF#8), (1, 0xCD#8), (2, 0xAB#8)] && t.head == 1) = true := by decide

/-- Vector E5. -/
theorem test_runt_raw :
    onNext (exec (.startRuntRaw [0#8, 0#8, 0#8]) surfaced) (fun t =>
      t.trace == [.errOut .runtStart 4#64] && t.head == 0 && !t.pending) = true := by decide

/-- Vector E6. -/
theorem test_runt_rle :
    onNext (exec (.startRuntRle []) surfaced) (fun t => t.trace == [.errOut .runtStart 1#64]) = true := by decide

/-- Vector E3. -/
theorem test_unknown :
    onNext (exec (.startUnknown 3#7 [0#8, 0#8]) surfaced) (fun t =>
      t.trace == [.errOut .unknownKind 0x83#64] && t.slot0 == surfaced.slot0) = true := by decide

/-- Vector E9. -/
theorem test_cont :
    onNext (exec (.cont [0x7F#8, 0x01#8, 0x02#8]) surfaced) (fun t =>
      t.slot0.payload == [(0, 0x7F#8), (1, 0x01#8), (2, 0x02#8)] && t.slot0.length == 3#32 && t.head == 1) = true := by
  decide

/-- Vector C2: 1015 + 10 is over 1024. -/
theorem test_cont_oversize :
    onNext (exec (.cont (List.replicate 10 0#8)) (unfinished 1015#32)) (fun t =>
      t.trace == [.errOut .oversize 1025#64] && t.drop && t.slot0.length == 1015#32 && t.head == 0) = true := by decide

theorem test_commit : onNext (exec .commit surfaced) (fun t => t.head == 1 && t.pending) = true := by decide

/-- 10_state R22: `head` wraps at `N`. -/
theorem test_commit_wraps : onNext (exec .commit { surfaced with head := 1 }) (fun t => t.head == 0) = true := by decide

theorem test_signal : onNext (exec .signal surfaced) (fun t => t.pending && t.head == 0) = true := by decide

/-- Vector S-A, step 2. -/
theorem test_invoke :
    onNext (exec .invoke { surfaced with pending := true }) (fun t =>
      !t.pending && t.running && t.cAtt && t.cSize == 153600#32 && t.cStride == 5120#32 && t.cPhase == .check) = true := by
  decide

/-- Vector K3. -/
theorem test_check_no_surface :
    onNext (exec .check { inPhase .check with cAtt := false }) (fun t =>
      t.trace == [.errOut .noDst 0#64] && !t.running && t.cPhase == .idle) = true := by decide

/-- Vector O1. -/
theorem test_take :
    onNext (exec .take (committed .rawBlt 5#16 3#16 [0xAA#8, 0x55#8])) (fun t =>
      t.cBase == 1930 && t.wr == 1930 && t.rd == 0 && t.cLen == 2#32 && t.cPhase == .raw) = true := by decide

/-- Vectors O2 and O3: equality passes, one more byte is over. -/
theorem test_take_bounds :
    onNext (exec .take (committed .rawBlt 319#16 239#16 [1#8, 2#8])) (fun t => t.cPhase == .raw && t.trace == []) = true ∧
      onNext (exec .take (committed .rawBlt 319#16 239#16 [1#8, 2#8, 3#8])) (fun t =>
        t.cPhase == .release && t.trace == [.errOut .dstBounds 153601#64]) = true := by decide

/-- Vector O8: the offset does not wrap at 32 bits. -/
theorem test_take_exact :
    onNext (exec .take { committed .rawBlt 65535#16 65535#16 [1#8, 2#8] with
        cStride := 4294967295#32, cSize := 4294967295#32 }) (fun t =>
      t.cBase == 35183835340798 && t.trace == [.errOut .dstBounds 35183835340800#64]) = true := by decide

/-- Program P1. -/
theorem test_raw_blt :
    onNext (exec .rawBlt (holding .raw .rawBlt 644 [0xDE#8, 0xAD#8])) (fun t =>
      t.dst == [(644, 0xDE#8), (645, 0xAD#8)] && t.trace == [.dstWr 644 0xDE#8, .dstWr 645 0xAD#8] &&
        t.cPhase == .release) = true := by decide

/-- Vector S-C, step 3: the header byte; vector L6: the empty payload. -/
theorem test_rle_blt :
    onNext (exec .rleBlt (holding .rle .rleBlt 1930 [0xBF#8, 0xCD#8, 0xAB#8])) (fun t =>
      t.cSeg == some { header := 0xBF#8, moved := 0, pixel := none } && t.rd == 0) = true ∧
    onNext (exec .rleBlt (holding .rle .rleBlt 0 [])) (fun t => t.cPhase == .release) = true := by decide

/-- Vector L10 with `RLE_GUARD` true: nothing is written. -/
theorem test_rle_blt_guard :
    onNext (exec .rleBlt
        { holding .rle .rleBlt 153598 [0x81#8, 0xAA#8, 0xBB#8] with cfg := { Config.ofVectors with rleGuard := true } })
      (fun t => t.trace == [.errOut .dstBounds 153602#64] && t.cPhase == .release && t.dst == []) = true := by decide

/-- The example of 42_decoder R171. -/
theorem test_segment_literal :
    onNext (exec (.segLiteral false 1#6) (expanding 100 0x01#8 [0x01#8, 0x11#8, 0x22#8, 0x33#8, 0x44#8])) (fun t =>
      t.dst == [(100, 0x11#8), (101, 0x22#8), (102, 0x33#8), (103, 0x44#8)] && t.rd == 5 && t.wr == 104 &&
        t.cSeg == none) = true := by decide

/-- The example of 42_decoder R172, at `wr = 104`. -/
theorem test_segment_repeat :
    onNext (exec (.segRepeat false 2#6) (expanding 104 0x82#8 [0x82#8, 0xAA#8, 0xBB#8])) (fun t =>
      t.trace == [.dstWr 104 0xAA#8, .dstWr 105 0xBB#8, .dstWr 106 0xAA#8, .dstWr 107 0xBB#8, .dstWr 108 0xAA#8,
        .dstWr 109 0xBB#8] && t.rd == 3 && t.wr == 110) = true := by decide

/-- Vector L10 with `RLE_GUARD` false: the two writes past the surface are recorded. -/
theorem test_segment_repeat_outside :
    onNext (exec (.segRepeat false 1#6) (expanding 153598 0x81#8 [0x81#8, 0xAA#8, 0xBB#8])) (fun t =>
      t.faults == [.dstOutOfSurface 153600, .dstOutOfSurface 153601] && t.trace.length == 4 &&
        t.dst == [(153598, 0xAA#8), (153599, 0xBB#8)]) = true := by decide

/-- Vector S-A, step 6. -/
theorem test_release :
    onNext (exec .release (holding .release .rawBlt 0 [])) (fun t => t.tail == 1 && t.cPhase == .loop) = true := by decide

/-- Vector K5: the history and the payload stay. -/
theorem test_reset :
    onNext (exec .reset { holding .raw .rawBlt 0 [7#8] with trace := [.dstWr 0 7#8], drop := true }) (fun t =>
      t.head == 0 && !t.running && t.cPhase == .idle && !t.drop && t.slot0.length == 0#32 &&
        t.slot0.payload == [(0, 7#8)] && t.trace == [.dstWr 0 7#8]) = true := by decide

/-- 41_ring R146: an operation that is not enabled is not run. -/
theorem test_not_enabled : exec .take surfaced = .refused .notEnabled := by rfl

/-- Program P7: the byte copied during the holding is the old value or the new one. -/
theorem test_slot_race :
    onNext (exec (.startRawBlt 8#16 0#16 2#16 1#16 [0xC1#8, 0xC2#8])
        { holding .raw .rawBlt 0 [0xA1#8, 0xA2#8] with head := 0, tail := 0 }) (fun t =>
      t.raceValues 1 == [0xA2#8] && storedByte 0 t.slot0.payload 1 == 0xC2#8 && t.cBase == 0 && t.cLen == 2#32) = true := by
  decide

/-- A word placed for the next step is run by it. -/
theorem test_fetch_word :
    onNext (step (State.reset.withFetchWord 8 0x81)) (fun t => t.slot0.kind == .rawBlt && t.head == 1) = true ∧
      onNext (step (State.reset.withFetchWord 8 0x80)) (fun t => t.trace == [.errOut .unknownKind 0x80#64]) = true ∧
      onNext (step (State.reset.withFetchWord 8 0x02)) (fun t => t.cPhase == .release) = true := by decide

/-- The order of the history: a surface change during an invocation is refused. -/
theorem test_surface_while_running :
    onNext (step { inPhase .loop with inputs := [.surface false 0#32 0#32] }) (fun _ => true) = false := by decide

/-! ## Witnesses: concrete inputs that meet the hypotheses of each statement, a boundary value for each clause -/

/-- A message in two chunks: a full START chunk and a short CONT chunk. -/
def twoChunks : Message :=
  { kind := .rawBlt, x := 0#16, y := 0#16, width := 0#16, height := 0#16
    first := List.replicate 503 0#8, rest := [[1#8]] }

/-- Its chunks on the wire with a turn of the internal agents between them. -/
def twoChunkInputs : List Input :=
  [.chunk (encodeStart .le kindRawBlt 0#16 0#16 0#16 0#16 (List.replicate 503 0#8)), .turn none, .chunk [1#8]]

/-- A short RAW message on the wire. -/
def shortRaw (x y : Half) (payload : List Byte) : List Byte := encodeStart .le kindRawBlt x y 1#16 1#16 payload

theorem witness_EncodedOperationDecodesBack :
    (Instr.startRuntRle []).wf = true ∧ encode .le (.startRuntRle []) = some (.chunk, [0x82#8]) ∧
      Instr.rawBlt.wf = true ∧ encode .le .rawBlt = some (.slotKind, [0x01#8]) ∧
      (Instr.segRepeat true 63#6).wf = true ∧ encode .le (.segRepeat true 63#6) = some (.segment, [0xFF#8]) := by
  decide

theorem witness_EveryChunkIsExactlyOneForm :
    ([] : List Byte).length ≤ 512 ∧ (List.replicate 512 0x80#8).length ≤ 512 := by
  simp only [List.length_replicate]; decide

theorem witness_ChunkDispatch :
    (0x7F#8).getLsbD 7 = false ∧ (0x80#8).getLsbD 7 = true ∧ (0x80#8).toNat % 128 ≠ 1 ∧ (0x80#8).toNat % 128 ≠ 2 ∧
      (0x81#8).getLsbD 7 = true ∧ (0x81#8).toNat % 128 = 1 ∧ (0x82#8).getLsbD 7 = true ∧ (0x82#8).toNat % 128 = 2 ∧
      (0x81#8 :: List.replicate 7 0#8).length < 9 ∧ 9 ≤ (0x81#8 :: List.replicate 8 0#8).length := by
  decide

theorem witness_StartChunkFillsTheHeadSlot :
    ∃ short full : List Byte, 9 + short.length ≤ 512 ∧ 9 + short.length < 512 ∧ 9 + full.length ≤ 512 ∧
      9 + full.length = 512 :=
  ⟨[], List.replicate 503 0#8, by decide, by decide, by rw [List.length_replicate], by rw [List.length_replicate]⟩

theorem witness_UnknownKindIsReportedAndIgnored :
    (Instr.startUnknown 0#7 []).wf = true ∧ (Instr.startUnknown 127#7 [0#8]).wf = true := by decide

theorem witness_RuntStartIsReportedAndIgnored :
    1 + ([] : List Byte).length ≤ 8 ∧ 1 + (List.replicate 7 0#8).length ≤ 8 := by decide

/-- Vectors C4 and C1, and a full chunk. -/
theorem witness_ContinuationAppends :
    ((unfinished 1015#32).drop = false ∧
      ((unfinished 1015#32).slot (unfinished 1015#32).head).length.toNat + (List.replicate 9 0#8).length ≤
        (unfinished 1015#32).cfg.capacity.bytes ∧ (List.replicate 9 0#8).length < 512) ∧
    (unfinished 503#32).drop = false ∧
      ((unfinished 503#32).slot (unfinished 503#32).head).length.toNat + (List.replicate 512 0#8).length ≤
        (unfinished 503#32).cfg.capacity.bytes ∧ (List.replicate 512 0#8).length = 512 := by
  simp only [List.length_replicate]; decide

/-- Vector C2. -/
theorem witness_OversizeContinuationIsDropped :
    (unfinished 1015#32).drop = false ∧
      (unfinished 1015#32).cfg.capacity.bytes <
        ((unfinished 1015#32).slot (unfinished 1015#32).head).length.toNat + (List.replicate 10 0#8).length := by decide

theorem witness_DroppedContinuationDoesNothing : { surfaced with drop := true }.drop = true := by decide

theorem witness_EmptyChunkCommitsTheSlotAsItStands : surfaced.Inv ∧ surfaced.drop = false := by decide

theorem witness_MessageCommitsItsWholePayload :
    twoChunks.framed = true ∧ twoChunks.payload.length ≤ { surfaced with inputs := twoChunkInputs }.cfg.capacity.bytes ∧
      (∀ ev ∈ twoChunkInputs, ev.isTraffic = true) ∧
      twoChunkInputs.filterMap Input.delivered = twoChunks.chunks { surfaced with inputs := twoChunkInputs }.cfg.hdrEndian ∧
      { surfaced with inputs := twoChunkInputs }.inputs = twoChunkInputs ++ [] ∧
      ((twoChunkInputs.take 2).filterMap Input.delivered).length < (twoChunks.chunks .le).length ∧
      ((twoChunkInputs.take 0).filterMap Input.delivered).length < (twoChunks.chunks .le).length ∧
      Host.Core.run core 0 { surfaced with inputs := twoChunkInputs } = .next { surfaced with inputs := twoChunkInputs } := by
  refine ⟨?_, ?_, fun ev h => ?_, rfl, rfl, by decide, by decide, rfl⟩
  · simp only [Message.framed, twoChunks, List.length_replicate]; decide
  · simp only [Message.payload, twoChunks, List.length_append, List.length_replicate]; decide
  · simp only [twoChunkInputs, List.mem_cons, List.not_mem_nil, or_false] at h
    rcases h with rfl | rfl | rfl <;> rfl

/-- Vector C3. -/
theorem witness_NothingCommitsWhileDropping :
    ∃ (s : State) (evs : List Input), s.drop = true ∧ (∀ ev ∈ evs, ev.isTraffic = true) ∧
      (∀ bytes ∈ evs.filterMap Input.delivered, notAcceptedStart s.cfg.hdrEndian bytes = true) ∧ s.inputs = evs ++ [] ∧
      ∀ ev ∈ evs, ∃ bytes, ev = .chunk bytes :=
  ⟨{ surfaced with drop := true, inputs := [.chunk [5#8], .chunk [0x83#8], .chunk [0x81#8, 0#8]] },
    [.chunk [5#8], .chunk [0x83#8], .chunk [0x81#8, 0#8]], by decide, by decide, by decide, by decide, by simp⟩

theorem witness_InvokeStartsAnInvocation :
    { surfaced with pending := true }.pending = true ∧ { surfaced with pending := true }.running = false := by decide

theorem witness_ReleaseHandsTheSlotBack :
    (inPhase .release).running = true ∧ (inPhase .release).cPhase = .release := by decide

/-- Program P4, steps 1 and 2. -/
theorem witness_OverrunRendersNothing :
    ∃ s : State, s.pending = false ∧ s.running = false ∧ s.cPhase = .idle ∧ s.tail = s.head ∧ s.dstAttached = true ∧
      9 + [0x11#8, 0x11#8].length < 512 ∧ 9 + [0x22#8, 0x22#8].length < 512 ∧
      s.inputs =
        [.chunk (encodeStart s.cfg.hdrEndian kindRawBlt 0#16 0#16 1#16 1#16 [0x11#8, 0x11#8]),
          .chunk (encodeStart s.cfg.hdrEndian kindRawBlt 1#16 0#16 1#16 1#16 [0x22#8, 0x22#8])] :=
  ⟨{ surfaced with
      inputs := [.chunk (shortRaw 0#16 0#16 [0x11#8, 0x11#8]), .chunk (shortRaw 1#16 0#16 [0x22#8, 0x22#8])] },
    by decide⟩

/-- Vector K3. -/
theorem witness_NoSurfaceStrandsTheSlot :
    ∃ s : State, s.inputs = [] ∧ s.pending = true ∧ s.running = false ∧ s.dstAttached = false :=
  ⟨{ State.reset with pending := true }, by decide⟩

theorem witness_OneMicroStepPerPhase :
    (inPhase .check).running = true ∧ (inPhase .check).cPhase ≠ .idle ∧ surfaced.running = false ∧
      (∃ t, exec .check (inPhase .check) = .next t) ∧ (∃ t, exec .take (inPhase .loop) = .next t) ∧
      (∃ t, exec .rawBlt (inPhase .raw) = .next t) ∧ (∃ t, exec .rleBlt (inPhase .rle) = .next t) ∧
      ∃ t, exec .release (inPhase .release) = .next t :=
  ⟨by decide, by decide, by decide, ⟨_, rfl⟩, ⟨_, rfl⟩, ⟨_, rfl⟩, ⟨_, rfl⟩, ⟨_, rfl⟩⟩

theorem witness_SurfaceCheck :
    (inPhase .check).running = true ∧ (inPhase .check).cPhase = .check ∧ (inPhase .check).cAtt = true ∧
      { inPhase .check with cAtt := false }.running = true ∧ { inPhase .check with cAtt := false }.cPhase = .check ∧
      { inPhase .check with cAtt := false }.cAtt = false := by decide

theorem witness_EmptyRingEndsTheInvocation :
    (inPhase .loop).running = true ∧ (inPhase .loop).cPhase = .loop ∧ (inPhase .loop).tail = (inPhase .loop).head := by
  decide

/-- Vectors O2 and O3. -/
theorem witness_TakeLatchesTheSlot :
    (committed .rawBlt 319#16 239#16 [1#8, 2#8]).running = true ∧
      (committed .rawBlt 319#16 239#16 [1#8, 2#8]).cPhase = .loop ∧
      (committed .rawBlt 319#16 239#16 [1#8, 2#8]).tail ≠ (committed .rawBlt 319#16 239#16 [1#8, 2#8]).head ∧
      153598 = ((319#16).toNat * 16 + (239#16).toNat * (5120#32).toNat) / 8 ∧ 153600 = 153598 + 2 ∧
      ¬(153600 > (153600#32).toNat) ∧ 153601 > (153600#32).toNat := by decide

/-- The RLE clause: an RLE message is not checked against the surface, even where its length alone would exceed it. -/
theorem witness_TakeLatchesTheSlot_rle :
    (committed .rleBlt 319#16 239#16 [0x80#8, 0xCD#8, 0xAB#8]).running = true ∧
      (committed .rleBlt 319#16 239#16 [0x80#8, 0xCD#8, 0xAB#8]).cPhase = .loop ∧
      (committed .rleBlt 319#16 239#16 [0x80#8, 0xCD#8, 0xAB#8]).tail ≠
        (committed .rleBlt 319#16 239#16 [0x80#8, 0xCD#8, 0xAB#8]).head ∧
      ((committed .rleBlt 319#16 239#16 [0x80#8, 0xCD#8, 0xAB#8]).slot
        (committed .rleBlt 319#16 239#16 [0x80#8, 0xCD#8, 0xAB#8]).tail).kind = .rleBlt ∧
      153598 = ((319#16).toNat * 16 + (239#16).toNat * (5120#32).toNat) / 8 ∧ 153601 = 153598 + 3 ∧
      153601 > (committed .rleBlt 319#16 239#16 [0x80#8, 0xCD#8, 0xAB#8]).cSize.toNat := by decide

theorem witness_RawCopyMovesThePayload :
    ∃ s : State, s.running = true ∧ s.cPhase = .raw ∧ s.rd ≤ s.cLen.toNat ∧ s.cBase + s.cLen.toNat ≤ s.cSize.toNat ∧
      s.burst = some 1 ∧ (1 : Nat) = min 1 (s.cLen.toNat - s.rd) :=
  ⟨{ holding .raw .rawBlt 153598 [1#8, 2#8] with burst := some 1 }, by decide⟩

theorem witness_RawCopyMovesThePayload_whole :
    ∃ s : State, s.running = true ∧ s.cPhase = .raw ∧ s.rd ≤ s.cLen.toNat ∧ s.cBase + s.cLen.toNat ≤ s.cSize.toNat ∧
      s.burst = none ∧ 2 = s.cLen.toNat - s.rd :=
  ⟨holding .raw .rawBlt 153598 [1#8, 2#8], by decide⟩

/-- Vectors L6, L12 and L10. -/
theorem witness_RleStepTestsReadsAndGuards :
    (∃ s : State, s.running = true ∧ s.cPhase = .rle ∧ s.cSeg = none ∧ s.cLen.toNat ≤ s.rd) ∧
    (∃ s : State, s.running = true ∧ s.cPhase = .rle ∧ s.cSeg = none ∧ s.rd < s.cLen.toNat ∧ s.cfg.rleGuard = true ∧
      s.payloadByte s.rd s.draws = 0x81#8 ∧ ¬(s.wr + 2 * ((0x81#8).toNat % 64 + 1) > s.cSize.toNat)) ∧
    ∃ s : State, s.running = true ∧ s.cPhase = .rle ∧ s.cSeg = none ∧ s.rd < s.cLen.toNat ∧ s.cfg.rleGuard = true ∧
      s.payloadByte s.rd s.draws = 0x81#8 ∧ s.wr + 2 * ((0x81#8).toNat % 64 + 1) > s.cSize.toNat :=
  ⟨⟨holding .rle .rleBlt 0 [], by decide⟩,
    ⟨{ holding .rle .rleBlt 153596 [0x81#8, 0xAA#8, 0xBB#8] with cfg := { Config.ofVectors with rleGuard := true } },
      by decide⟩,
    ⟨{ holding .rle .rleBlt 153598 [0x81#8, 0xAA#8, 0xBB#8] with cfg := { Config.ofVectors with rleGuard := true } },
      by decide⟩⟩

theorem witness_LiteralSegmentCopies :
    ∃ (s : State) (g : Segment), s.running = true ∧ s.cPhase = .rle ∧ s.cSeg = some g ∧
      decodeSegment g.header = .segLiteral false 0#6 ∧ Memory.wf s.dst = true ∧ g.moved ≤ 2 * ((0#6).toNat + 1) ∧
      s.burst = none :=
  ⟨expanding 153598 0x00#8 [0x00#8, 0x34#8, 0x12#8], { header := 0x00#8, moved := 0, pixel := none }, by decide⟩

theorem witness_LiteralSegmentCopies_partial :
    ∃ (s : State) (g : Segment), s.running = true ∧ s.cPhase = .rle ∧ s.cSeg = some g ∧
      decodeSegment g.header = .segLiteral false 63#6 ∧ Memory.wf s.dst = true ∧ g.moved ≤ 2 * ((63#6).toNat + 1) ∧
      s.burst = some 1 ∧ g.moved + min 1 (128 - g.moved) ≠ 128 :=
  ⟨{ expanding 0 0x3F#8 [0x3F#8, 1#8] with burst := some 1 }, { header := 0x3F#8, moved := 0, pixel := none }, by decide⟩

theorem witness_RepeatSegmentExpands :
    ∃ (s : State) (g : Segment), s.running = true ∧ s.cPhase = .rle ∧ s.cSeg = some g ∧
      decodeSegment g.header = .segRepeat false 63#6 ∧ Memory.wf s.dst = true ∧ g.moved ≤ 2 * ((63#6).toNat + 1) ∧
      s.burst = none ∧ g.pixel = none ∧ s.payloadByte (s.rd + 1) s.draws = 0xCD#8 ∧
      s.payloadByte (s.rd + 2) (s.draws + 1) = 0xAB#8 :=
  ⟨expanding 1930 0xBF#8 [0xBF#8, 0xCD#8, 0xAB#8], { header := 0xBF#8, moved := 0, pixel := none }, by decide⟩

theorem witness_RepeatSegmentExpands_resumed :
    ∃ (s : State) (g : Segment), s.running = true ∧ s.cPhase = .rle ∧ s.cSeg = some g ∧
      decodeSegment g.header = .segRepeat false 0#6 ∧ Memory.wf s.dst = true ∧ g.moved ≤ 2 * ((0#6).toNat + 1) ∧
      s.burst = some 0 ∧ g.pixel = some (1#8, 2#8) ∧ g.moved + min 0 (2 - g.moved) ≠ 2 :=
  ⟨{ inPhase .rle with cSeg := some { header := 0x80#8, moved := 1, pixel := some (1#8, 2#8) }, burst := some 0 },
    { header := 0x80#8, moved := 1, pixel := some (1#8, 2#8) }, by decide⟩

theorem witness_PartialMovesAddUpToTheWhole :
    (∃ u, exec .rawBlt ((holding .raw .rawBlt 0 [1#8, 2#8]).withBurst (some 1)) = .next u ∧ u.cPhase = .raw) ∧
    (∃ u, exec (.segLiteral false 0#6) ((expanding 0 0x00#8 [0x00#8, 1#8, 2#8]).withBurst (some 1)) = .next u ∧
      u.cSeg ≠ none) ∧
    ∃ u, exec (.segRepeat false 0#6) ((expanding 0 0x80#8 [0x80#8, 1#8, 2#8]).withBurst (some 1)) = .next u ∧
      u.cSeg ≠ none :=
  ⟨⟨_, rfl, by decide⟩, ⟨_, rfl, by decide⟩, ⟨_, rfl, by decide⟩⟩

theorem witness_RleDecodingEnds :
    (holding .rle .rleBlt 0 [0xBF#8, 1#8, 2#8]).inputs = [] ∧ (holding .rle .rleBlt 0 [0xBF#8, 1#8, 2#8]).running = true ∧
      (holding .rle .rleBlt 0 [0xBF#8, 1#8, 2#8]).cPhase = .rle ∧ (holding .rle .rleBlt 0 [0xBF#8, 1#8, 2#8]).cSeg = none := by
  decide

/-- A smallest literal and a smallest repeat segment (vectors L3a, L3b). -/
theorem witness_RlePayloadExpandsToItsSegments :
    ∃ (s : State) (gs : List RleSegment) (pay out : List Byte), (∀ g ∈ gs, g.wf = true) ∧
      pay = gs.flatMap RleSegment.encoded ∧ out = gs.flatMap RleSegment.expanded ∧ s.Inv ∧ s.inputs = [] ∧
      s.running = true ∧ s.cPhase = .rle ∧ s.cSeg = none ∧ s.races = [] ∧ s.rd = 0 ∧ s.wr = s.cBase ∧
      s.cLen.toNat = pay.length ∧ (∀ a, a < pay.length → Memory.read (s.slot s.tail).payload a = pay[a]?) ∧
      s.cBase + out.length ≤ s.cSize.toNat ∧ gs.length = 2 :=
  ⟨holding .rle .rleBlt 0 [0x00#8, 0x34#8, 0x12#8, 0x80#8, 0x34#8, 0x12#8],
    [.literal false 0#6 [0x34#8, 0x12#8], .repeated false 0#6 0x34#8 0x12#8],
    [0x00#8, 0x34#8, 0x12#8, 0x80#8, 0x34#8, 0x12#8], [0x34#8, 0x12#8, 0x34#8, 0x12#8], by decide⟩

/-- Vector O3. -/
theorem witness_RejectedRawMessageWritesNothing :
    ∃ (s : State) (last : Nat), s.inputs = [] ∧ s.running = true ∧ s.cPhase = .loop ∧ s.tail ≠ s.head ∧
      (s.slot s.tail).kind = .rawBlt ∧
      last = ((s.slot s.tail).x.toNat * 16 + (s.slot s.tail).y.toNat * s.cStride.toNat) / 8 +
        (s.slot s.tail).length.toNat ∧ last > s.cSize.toNat :=
  ⟨committed .rawBlt 319#16 239#16 [1#8, 2#8, 3#8], 153601, by decide⟩

/-- Vector O2. -/
theorem witness_ShortRawMessageReachesTheSurface :
    ∃ s : State, s.Inv ∧ s.pending = false ∧ s.running = false ∧ s.tail = s.head ∧ s.dstAttached = true ∧
      9 + [1#8, 2#8].length < 512 ∧
      153598 = ((319#16).toNat * 16 + (239#16).toNat * s.dstStrideBits.toNat) / 8 ∧
      153598 + [1#8, 2#8].length ≤ s.dstSize.toNat ∧
      s.inputs = [.chunk (encodeStart s.cfg.hdrEndian kindRawBlt 319#16 239#16 1#16 1#16 [1#8, 2#8])] :=
  ⟨{ surfaced with inputs := [.chunk (shortRaw 319#16 239#16 [1#8, 2#8])] }, by decide⟩

theorem witness_PayloadReadGivesTheStoredByte :
    ∃ s : State, 0 < s.cfg.capacity.bytes ∧ (∀ r ∈ s.races, 0 < r.base ∨ r.base + r.count ≤ 0) ∧
      Memory.read (s.slot s.tail).payload 0 = some 7#8 :=
  ⟨holding .raw .rawBlt 0 [7#8], by decide⟩

/-- Program P7: M3 into the held Slot. -/
theorem witness_SlotRaceGivesOldOrNew :
    ∃ (s : State) (i : Instr), isChunkForm i = true ∧ s.holds = true ∧ s.head = s.tail ∧ ∃ t, exec i s = .next t :=
  ⟨{ holding .raw .rawBlt 0 [0xA1#8] with head := 0 }, .startRawBlt 8#16 0#16 2#16 1#16 [0xC1#8], by decide, by decide,
    by decide, _, rfl⟩

theorem witness_ProducerTouchesOnlyItsOwn :
    ∃ (s : State) (i : Instr), isChunkForm i = true ∧ ∃ t, exec i s = .next t ∧ t.slot0 ≠ s.slot0 :=
  ⟨surfaced, .cont [1#8], by decide, _, rfl, by decide⟩

theorem witness_ConsumerLeavesTheProducerAlone :
    ∃ (s : State) (i : Instr), isMicroStep i = true ∧ ∃ t, exec i s = .next t :=
  ⟨inPhase .release, .release, by decide, _, rfl⟩

/-- The writers of each shared field in turn: a chunk, `RELEASE`, `INVOKE`, the surface owner. -/
theorem witness_EachSharedFieldHasItsWriters :
    (∃ s t : State, step s = .next t ∧ t.head ≠ s.head ∧ s.pending = false ∧ t.pending = true) ∧
    (∃ s t : State, step s = .next t ∧ t.tail ≠ s.tail) ∧
    (∃ s t : State, step s = .next t ∧ s.pending = true ∧ t.pending = false ∧ s.running = false ∧ t.running = true) ∧
    ∃ s t : State, step s = .next t ∧ t.dstSize ≠ s.dstSize :=
  ⟨⟨{ surfaced with inputs := [.chunk []] }, _, rfl, by decide⟩, ⟨inPhase .release, _, rfl, by decide⟩,
    ⟨{ surfaced with pending := true }, _, rfl, by decide⟩,
    ⟨{ State.reset with inputs := [.surface true 1#32 0#32] }, _, rfl, by decide⟩⟩

theorem witness_SurfaceChangesOnlyByRecordedWrites :
    ∃ s t : State, step s = .next t ∧ t.dst ≠ s.dst := ⟨holding .raw .rawBlt 0 [7#8], _, rfl, by decide⟩

/-- Vector L10, a whole segment past the end. -/
theorem witness_OutsideWritesAreRecorded :
    ∃ (s : State) (i : Instr) (t : State), exec i s = .next t ∧ Memory.wf s.dst = true ∧
      Transaction.dstWr 153600 0xAA#8 ∈ t.trace ∧ s.cSize.toNat ≤ 153600 :=
  ⟨expanding 153600 0x80#8 [0x80#8, 0xAA#8, 0xBB#8], .segRepeat false 0#6, _, rfl, by decide⟩

theorem witness_OnlyUnguardedRleLeavesTheSurface :
    ∃ s t : State, s.Inv ∧ step s = .next t ∧ t.faults ≠ s.faults :=
  ⟨{ expanding 0 0x80#8 [0x80#8, 0xAA#8, 0xBB#8] with cSize := 1#32 }, _, by decide, rfl, by decide⟩

theorem witness_CursorsStayInTheirBounds :
    (holding .rle .rleBlt 0 [0xBF#8]).Inv ∧ (holding .rle .rleBlt 0 [0xBF#8]).holds = true ∧
      (holding .rle .rleBlt 0 [0xBF#8]).cPhase = .rle ∧ (holding .raw .rawBlt 0 [0xBF#8]).Inv ∧
      (holding .raw .rawBlt 0 [0xBF#8]).holds = true ∧ (holding .raw .rawBlt 0 [0xBF#8]).cPhase = .raw :=
  ⟨by decide, by decide, by decide, by decide, by decide, by decide⟩

/-- The two steps without a meaning are there: a chunk over 512 bytes, a surface change while running. -/
theorem witness_NoErrorIsFatal :
    step { surfaced with inputs := [.chunk (List.replicate 513 0#8)] } = .refused .chunkTooLong ∧
      step { inPhase .loop with inputs := [.surface true 0#32 0#32] } = .refused .surfaceMovedWhileRunning := by
  refine ⟨?_, rfl⟩
  rw [step_chunk rfl, if_pos (by simp only [List.length_replicate]; decide)]

theorem witness_AtMostOneErrorPerStep :
    ∃ s t : State, step s = .next t ∧ t.trace = [.errOut .unknownKind 0x80#64] :=
  ⟨{ surfaced with inputs := [.chunk [0x80#8]] }, _, rfl, by decide⟩

theorem witness_EveryStepKeepsTheInvariant :
    ∃ s t : State, s.Inv ∧ step s = .next t ∧ t ≠ s := ⟨inPhase .loop, _, by decide, rfl, by decide⟩

theorem witness_StepRunsTheDecodedChunk :
    ∃ (s : State) (i : Instr), s.inputs = [.chunk [0x80#8]] ∧ decode s.cfg.hdrEndian .chunk [0x80#8] = .ok i :=
  ⟨{ surfaced with inputs := [.chunk [0x80#8]] }, .startUnknown 0#7 [], by decide⟩

/-- Both kinds of turn, and each selection. -/
theorem witness_StepRunsTheSelectedOperation :
    (inPhase .check).inputs = [] ∧
      { inPhase .loop with inputs := [.turn (some 1)] }.inputs = [.turn (some 1)] ∧
      { surfaced with pending := true }.running = false ∧ { surfaced with pending := true }.pending = true ∧
      (inPhase .check).running = true ∧ (inPhase .check).cPhase = .check ∧ (inPhase .loop).cPhase = .loop ∧
      (inPhase .raw).cPhase = .raw ∧ (inPhase .rle).cPhase = .rle ∧ (inPhase .rle).cSeg = none ∧
      (expanding 0 0x80#8 []).cSeg = some { header := 0x80#8, moved := 0, pixel := none } ∧
      decode .le .segment [0x80#8] = .ok (.segRepeat false 0#6) ∧ (inPhase .release).cPhase = .release := by decide

theorem witness_StepOfTheOtherInputs :
    { surfaced with inputs := [.surface false 0#32 0#32] }.inputs = [.surface false 0#32 0#32] ∧
      { surfaced with inputs := [.surface false 0#32 0#32] }.running = false ∧
      { surfaced with inputs := [.reset] }.inputs = [.reset] ∧
      { surfaced with inputs := [.turn (some 0)] }.inputs = [.turn (some 0)] ∧
      { surfaced with inputs := [.turn (some 0)] }.running = false ∧
      { surfaced with inputs := [.turn (some 0)] }.pending = false := by decide

theorem witness_QuiescentStatesDoNotMove : surfaced.Quiescent := by decide

theorem witness_InputFreeRunsEndQuiescent :
    (holding .rle .rleBlt 0 [0xBF#8, 1#8, 2#8]).Inv ∧ (holding .rle .rleBlt 0 [0xBF#8, 1#8, 2#8]).inputs = [] ∧
      ¬(holding .rle .rleBlt 0 [0xBF#8, 1#8, 2#8]).Quiescent := by decide

end Sys2Proof.Tests
end

section
/-! The family 10_state: what is true after power-up, what every step keeps, and who may write which field. -/

namespace Sys2Proof.Machine

variable {s t : State} {i o : Instr}

/-! ## Which agent an operation belongs to -/

/-- An enabled operation is `INVOKE`, outside an invocation, or a micro-step within one (41_ring R146, 42_decoder R160). -/
theorem invoke_or_microStep_of_enabled (he : s.enabledStep = some o) :
    (o = .invoke ∧ s.running = false ∧ s.pending = true) ∨ (isMicroStep o = true ∧ s.running = true) := by
  rcases exec_enabled he with ⟨ho, hr, hp, _⟩ | ⟨hr, hc⟩
  · exact .inl ⟨ho, hr, hp⟩
  · refine .inr ⟨?_, hr⟩
    rcases hc with ⟨_, rfl, _⟩ | ⟨_, rfl, _⟩ | ⟨_, rfl, _⟩ | ⟨_, _, rfl, _⟩ | ⟨_, _, _, _, rfl, _⟩ |
      ⟨_, _, _, _, rfl, _⟩ | ⟨_, rfl, _⟩ <;> rfl

theorem exec_invoke_eq_next (h : exec .invoke s = .next t) : t = s.invoked :=
  (State.whenEnabled_eq_next.mp h).2

/-- A well-formed accepted START chunk runs `State.acceptStart` on a payload that fits the chunk (30_encoding R86). -/
theorem acceptStart_of_exec (ha : isAcceptedStart i = true) (hw : i.wf = true) (h : exec i s = .next t) :
    ∃ k x y w hh p, hdrLen + p.length ≤ maxChunk ∧ t = s.acceptStart k x y w hh p := by
  cases i <;> simp only [isAcceptedStart, Bool.false_eq_true] at ha
  case startRawBlt x y w hh p =>
    cases h
    exact ⟨_, _, _, _, _, _, of_decide_eq_true hw, rfl⟩
  case startRleBlt x y w hh p =>
    cases h
    exact ⟨_, _, _, _, _, _, of_decide_eq_true hw, rfl⟩

/-! ## The invariant -/

/-- A chunk of the port keeps the invariant: it fills or extends `slot[head]` inside `CAPACITY`, or only reports. -/
theorem State.Inv.execChunk (h : s.Inv) (hc : isChunkForm i = true) (hw : i.wf = true) (hx : exec i s = .next t) :
    t.Inv := by
  rcases chunkForm_cases hc hx with
    ⟨_, _, _, _, _, _, _, ha⟩ | ⟨bs, _, _, hl, rfl⟩ | ⟨_, _, rfl⟩ | ⟨_, rfl⟩ | ⟨_, _, rfl⟩
  · obtain ⟨k, x, y, w, hh, p, hl, rfl⟩ := acceptStart_of_exec ha hw hx
    exact h.acceptStart k x y w hh p hl
  · exact h.append bs hl
  · exact h
  · exact h
  · exact h

/-- A micro-step of the consumer keeps the invariant. -/
theorem State.Inv.execMicroStep (h : s.Inv) (hm : isMicroStep i = true) (hx : exec i s = .next t) : t.Inv := by
  obtain ⟨hr, ⟨hp, _, rfl⟩ | ⟨hp, _, rfl⟩ | ⟨hp, _, rfl⟩ | ⟨hp, hs, _, rfl⟩ | ⟨g, _, hp, hg, _, rfl⟩ |
    ⟨g, _, hp, hg, _, rfl⟩ | ⟨hp, _, rfl⟩⟩ := microStep_cases hm hx
  · exact h.checked hr hp
  · exact h.taken hr hp
  · exact h.rawCopied hr hp
  · exact h.segmentBegun hr hp hs
  · exact h.literalMoved hp hg
  · exact h.repeatMoved hp hg
  · exact h.released hr hp

/-- The enabled internal operation keeps the invariant. -/
theorem State.Inv.execEnabled (h : s.Inv) (he : s.enabledStep = some o) (hx : exec o s = .next t) : t.Inv := by
  rcases invoke_or_microStep_of_enabled he with ⟨rfl, hr, _⟩ | ⟨hm, _⟩
  · obtain rfl := exec_invoke_eq_next hx
    exact h.invoked hr
  · exact h.execMicroStep hm hx

/-- Settles O50, by the case split of `step_cases`: each operation a step can run keeps the invariant. -/
theorem everyStepKeepsTheInvariant : Obligations.EveryStepKeepsTheInvariant := by
  intro s t h hx
  rcases step_cases hx with
    ⟨_, o, b, rfl, _, _, he, hx⟩ | ⟨_, _, rfl⟩ | ⟨bytes, _, hl, hx⟩ | ⟨att, size, stride, _, _, rfl⟩ | ⟨_, rfl⟩
  · exact ((h.withInputs _).withBurst b).execEnabled he hx
  · exact h.withInputs _
  · exact (h.withInputs _).execChunk (isChunkForm_decodeChunkForm ..) (wf_decodeChunkForm _ _ hl) hx
  · exact (h.withInputs _).withSurface att size stride
  · exact (h.withInputs _).resetRegisters

/-- After power-up the memories are empty, no Slot is held and no segment is in progress. -/
theorem State.powerUp_inv (cfg : Config) : (State.powerUp cfg).Inv :=
  ⟨⟨⟨rfl, rfl, Nat.zero_le _⟩, ⟨rfl, rfl, Nat.zero_le _⟩, rfl⟩,
    ⟨⟨fun _ => rfl, fun _ => rfl⟩, fun hi => absurd rfl hi⟩,
    ⟨nofun, fun _ => rfl⟩, nofun, nofun, nofun⟩

/-- Settles O49. -/
theorem resetHasTheInvariant : Obligations.ResetHasTheInvariant :=
  ⟨State.powerUp_inv, State.powerUp_inv Config.ofVectors⟩

theorem State.powerUp_slot (cfg : Config) (j : SlotIdx) : (State.powerUp cfg).slot j = Slot.cleared [] :=
  State.forall_slot (p := fun v => v = Slot.cleared []).mpr ⟨rfl, rfl⟩ j

/-- Settles O48: both Slots are cleared, and the other registers are read off. -/
theorem powerUpState : Obligations.PowerUpState := by
  refine ⟨?_, rfl⟩
  rintro cfg _ rfl
  refine ⟨rfl, rfl, rfl, rfl, rfl, rfl, rfl, fun j => ?_⟩
  rw [State.powerUp_slot]
  exact ⟨rfl, rfl, rfl, rfl, rfl, rfl⟩

/-! ## What the producer may write -/

/-- A chunk leaves every Slot but `slot[head]` alone. -/
theorem chunkForm_slot_ne (hc : isChunkForm i = true) (h : exec i s = .next t) {j : SlotIdx} (hj : j ≠ s.head) :
    t.slot j = s.slot j := by
  rcases chunkForm_cases hc h with
    ⟨_, _, _, _, _, _, rfl, _⟩ | ⟨_, _, _, _, rfl⟩ | ⟨_, _, rfl⟩ | ⟨_, rfl⟩ | ⟨_, _, rfl⟩
  · rw [State.acceptStart_eq]
    exact State.setSlot_slot_ne s _ hj
  · rw [State.append_eq]
    exact State.setSlot_slot_ne s _ hj
  · rfl
  · rfl
  · rfl

/-- The frame of a chunk: only the producer's own fields and the outputs can differ (10_state R39). -/
theorem chunkForm_frame (hc : isChunkForm i = true) (h : exec i s = .next t) :
    t = { s with
      head := t.head, slot0 := t.slot0, slot1 := t.slot1, drop := t.drop, pending := t.pending, trace := t.trace,
      races := t.races } := by
  rcases chunkForm_cases hc h with
    ⟨_, _, _, _, _, _, rfl, _⟩ | ⟨_, _, _, _, rfl⟩ | ⟨_, _, rfl⟩ | ⟨_, rfl⟩ | ⟨_, _, rfl⟩
  · rw [State.acceptStart_eq]; rfl
  · rw [State.append_eq]; rfl
  · rfl
  · rfl
  · rfl

/-- No chunk takes a wake-up back (10_state R27). -/
theorem chunkForm_keeps_pending (hc : isChunkForm i = true) (h : exec i s = .next t) (hp : s.pending = true) :
    t.pending = true := by
  rcases chunkForm_cases hc h with
    ⟨_, _, _, _, _, _, rfl, _⟩ | ⟨_, _, _, _, rfl⟩ | ⟨_, _, rfl⟩ | ⟨_, rfl⟩ | ⟨_, _, rfl⟩
  · rw [State.acceptStart_eq]; simp [hp]
  · rw [State.append_eq]; simp [hp]
  · exact hp
  · exact hp
  · exact hp

/-- Settles O37. -/
theorem producerTouchesOnlyItsOwn : Obligations.ProducerTouchesOnlyItsOwn :=
  fun _ _ _ hc h => ⟨fun _ hj => chunkForm_slot_ne hc h hj, chunkForm_frame hc h⟩

/-! ## What the consumer may write -/

/-- The frame of a micro-step: only the consumer's registers, the outputs and the model's records can differ
(10_state R39). -/
theorem microStep_frame (hm : isMicroStep i = true) (h : exec i s = .next t) :
    t = { s with
      tail := t.tail, running := t.running, cPhase := t.cPhase, cKind := t.cKind, cX := t.cX, cY := t.cY,
      cLen := t.cLen, cBase := t.cBase, rd := t.rd, wr := t.wr, dst := t.dst, trace := t.trace, cSeg := t.cSeg,
      races := t.races, faults := t.faults, draws := t.draws } := by
  obtain ⟨_, ⟨_, _, rfl⟩ | ⟨_, _, rfl⟩ | ⟨_, _, rfl⟩ | ⟨_, _, _, rfl⟩ | ⟨g, _, _, _, _, rfl⟩ |
    ⟨g, _, _, _, _, rfl⟩ | ⟨_, _, rfl⟩⟩ := microStep_cases hm h
  · rw [State.checked_eq]
  · by_cases he : s.tail = s.head
    · rw [State.taken, if_pos he]; rfl
    · rw [State.taken_eq s he rfl rfl]
  · rw [State.rawCopied_eq s rfl]
  · rcases State.segmentBegun_cases s with ⟨_, h⟩ | ⟨_, _, h⟩ | ⟨_, _, _, _, _, _, h⟩ <;> rw [h]
  · rw [State.literalMoved_eq s g _ rfl]
  · rw [State.repeatMoved_eq s g _ rfl rfl]
  · rfl

/-- Of the micro-steps only the release moves `tail` (41_ring R149). -/
theorem microStep_tail (hm : isMicroStep i = true) (h : exec i s = .next t) (ht : t.tail ≠ s.tail) :
    s.cPhase = .release ∧ t.cPhase = .loop := by
  obtain ⟨_, ⟨_, _, rfl⟩ | ⟨_, _, rfl⟩ | ⟨_, _, rfl⟩ | ⟨_, _, _, rfl⟩ | ⟨g, _, _, _, _, rfl⟩ |
    ⟨g, _, _, _, _, rfl⟩ | ⟨hp, _, rfl⟩⟩ := microStep_cases hm h
  · exact absurd (by rw [State.checked_eq]) ht
  · refine absurd ?_ ht
    by_cases he : s.tail = s.head
    · rw [State.taken, if_pos he]; rfl
    · rw [State.taken_eq s he rfl rfl]
  · exact absurd (by rw [State.rawCopied_eq s rfl]) ht
  · refine absurd ?_ ht
    rcases State.segmentBegun_cases s with ⟨_, h⟩ | ⟨_, _, h⟩ | ⟨_, _, _, _, _, _, h⟩ <;> rw [h]
  · exact absurd (by rw [State.literalMoved_eq s g _ rfl]) ht
  · exact absurd (by rw [State.repeatMoved_eq s g _ rfl rfl]) ht
  · exact ⟨hp, rfl⟩

/-- Settles O38. -/
theorem consumerLeavesTheProducerAlone : Obligations.ConsumerLeavesTheProducerAlone := by
  intro s i t hm h
  rw [microStep_frame hm h]
  exact ⟨rfl, rfl, rfl, rfl, rfl, rfl, rfl, rfl, rfl, rfl, rfl, rfl, rfl⟩

/-! ## Who may change a shared field -/

/-- Settles O39, by the case split of `step_cases` and the frames of the producer and of the consumer. -/
theorem eachSharedFieldHasItsWriters : Obligations.EachSharedFieldHasItsWriters := by
  intro s t h
  rcases step_cases h with
    ⟨_, o, b, rfl, _, _, he, hx⟩ | ⟨_, _, rfl⟩ | ⟨bytes, hi, _, hx⟩ | ⟨att, size, stride, _, hr, rfl⟩ | ⟨hi, rfl⟩
  · rcases invoke_or_microStep_of_enabled he with ⟨rfl, hr, hp⟩ | ⟨hm, hr⟩
    · obtain rfl := exec_invoke_eq_next hx
      simp only [State.withBurst_running, State.withInputs_running, State.withBurst_pending,
        State.withInputs_pending] at hr hp
      simp [hr, hp]
    · obtain ⟨h0, h1, hhd, hd, hp, ha, hsz, hst, _, _, _, hcfg, _⟩ := consumerLeavesTheProducerAlone _ _ _ hm hx
      have htail := microStep_tail hm hx
      have hr : s.running = true := hr
      exact ⟨by simp [h0, h1, hhd, hd], fun ht => .inr ⟨hr, htail ht⟩,
        fun hf ht => absurd (hf.symm.trans (hp.symm.trans ht)) Bool.false_ne_true,
        fun ht hf => absurd (hf.symm.trans (hp.trans ht)) Bool.false_ne_true,
        fun hf => absurd (hf.symm.trans hr) Bool.false_ne_true, by simp [ha, hsz, hst], hcfg⟩
  · cases hp : s.pending <;> simp [hp]
  · have hc := isChunkForm_decodeChunkForm s.cfg.hdrEndian bytes
    have hkeep := chunkForm_keeps_pending hc hx
    rw [chunkForm_frame hc hx]
    exact ⟨fun _ => .inr ⟨bytes, hi⟩, fun ht => absurd rfl ht, fun _ _ => ⟨bytes, hi⟩,
      fun h0 h1 => absurd (h1.symm.trans (hkeep h0)) Bool.false_ne_true,
      fun h0 h1 => absurd (h0.symm.trans h1) Bool.false_ne_true, by simp, rfl⟩
  · cases hp : s.pending <;> simp [hr, hp]
  · simp [hi, State.resetRegisters]

/-! ## What the surface records -/

/-- A run of writes issues a transaction at each of its addresses (20_memory R57). -/
theorem exists_write_mem_dstTransactions {a b : Nat} {bs : List Byte} (h : a ≤ b ∧ b < a + bs.length) :
    ∃ x ∈ dstTransactions a bs, Transaction.writes b x = true := by
  have hb : b - a < bs.length := by omega
  have hg := getElem?_dstTransactions a bs (b - a)
  rw [List.getElem?_eq_getElem hb, Option.map_some, Nat.add_sub_cancel' h.1] at hg
  exact ⟨_, List.mem_of_getElem? hg, by simp [Transaction.writes]⟩

/-- Settles O40: a step puts out one run of writes (`step_outputs`), and an address it does not write is not in the run. -/
theorem surfaceChangesOnlyByRecordedWrites : Obligations.SurfaceChangesOnlyByRecordedWrites := by
  intro s t h
  obtain ⟨a, bytes, errs, ho⟩ := step_outputs h
  refine ⟨_, ho.trace, fun b hb => ?_⟩
  rw [ho.dst]
  refine Memory.read_surfaceWrites_of_not_in bytes b fun hr => ?_
  obtain ⟨x, hx, hw⟩ := exists_write_mem_dstTransactions hr
  simp [hb x (List.mem_append_left _ hx)] at hw

end Sys2Proof.Machine
end

section
/-! The family 20_memory: what a Slot race leaves open, and the writes outside the surface. -/

namespace Sys2Proof.Machine

variable {s t : State} {i : Instr}

/-! ## Slot races -/

/-- A write of the producer to the held Slot adds to what a read may give only the byte before it (20_memory R65). -/
theorem State.mem_raceValues_storePayload {base a : Nat} {bs : List Byte} {v : Byte} (hh : s.holds = true)
    (ht : s.head = s.tail) (hv : v ∈ (s.storePayload base bs).raceValues a) :
    v = storedByte s.tail (s.slot s.tail).payload a ∨ v ∈ s.raceValues a := by
  rw [State.raceValues_storePayload s base bs a hh ht, List.mem_append] at hv
  rcases hv with hv | hv
  · exact .inr hv
  · split_ifs at hv
    · exact .inl (List.mem_singleton.mp hv)
    · exact absurd hv List.not_mem_nil

/-- After a chunk to the held Slot a race admits the byte before it or what a race admitted already: an accepted START and
an append write the Slot, and every other chunk leaves the races alone. -/
theorem chunkForm_mem_raceValues {a : Nat} {v : Byte} (hc : isChunkForm i = true) (hh : s.holds = true)
    (ht : s.head = s.tail) (h : exec i s = .next t) (hv : v ∈ t.raceValues a) :
    v = storedByte s.tail (s.slot s.tail).payload a ∨ v ∈ s.raceValues a := by
  rcases chunkForm_cases hc h with
    ⟨_, _, _, _, _, p, rfl, _⟩ | ⟨bs, _, _, _, rfl⟩ | ⟨_, _, rfl⟩ | ⟨_, rfl⟩ | ⟨_, _, rfl⟩
  · rw [State.acceptStart_eq] at hv
    exact State.mem_raceValues_storePayload (base := 0) (bs := p) hh ht hv
  · rw [State.append_eq] at hv
    exact State.mem_raceValues_storePayload (base := (s.slot s.head).length.toNat) (bs := bs) hh ht hv
  · exact .inr hv
  · exact .inr hv
  · exact .inr hv

/-- Settles O36: a read gives the stored byte or one a race admits (`State.payloadByte_mem`), and the registers of the
consumer stand in the frame of a chunk. -/
theorem slotRaceGivesOldOrNew : Obligations.SlotRaceGivesOldOrNew := by
  intro s i t hc hh ht h
  have htail : t.tail = s.tail := by rw [chunkForm_frame hc h]
  have hcfg : t.cfg = s.cfg := by rw [chunkForm_frame hc h]
  refine ⟨fun a d ha => ?_, by
    rw [chunkForm_frame hc h]
    exact ⟨rfl, rfl, rfl, rfl, rfl, rfl, rfl, rfl, rfl⟩⟩
  rcases t.payloadByte_mem a d (hcfg ▸ ha) with hnow | hrace
  · exact .inl (htail ▸ hnow)
  · exact .inr (chunkForm_mem_raceValues hc hh ht h hrace)

/-! ## Writes outside the surface -/

/-- The faults of a run of writes are those of its transactions, in order (20_memory R68). -/
theorem filterMap_fault_dstTransactions (size a : Nat) (bs : List Byte) :
    (dstTransactions a bs).filterMap (Transaction.fault size) = outOfSurface size a bs := by
  induction bs generalizing a with
  | nil => rfl
  | cons v bs ih =>
    rw [dstTransactions, List.filterMap_cons, ih, outOfSurface, Transaction.fault]
    by_cases ha : a < size
    · rw [if_pos ha, if_neg (by omega)]
    · rw [if_neg ha, if_pos (by omega)]

/-- A transaction of a run of writes is at an address of the run. -/
theorem addr_of_mem_dstTransactions {a b : Nat} {v : Byte} {bs : List Byte}
    (h : Transaction.dstWr b v ∈ dstTransactions a bs) : a ≤ b ∧ b < a + bs.length := by
  obtain ⟨k, hk⟩ := List.mem_iff_getElem?.mp h
  rw [getElem?_dstTransactions, Option.map_eq_some_iff] at hk
  obtain ⟨_, hget, heq⟩ := hk
  obtain ⟨hlt, _⟩ := List.getElem?_eq_some_iff.mp hget
  cases heq
  omega

/-- An error event is no fault. -/
theorem Outputs.filterMap_fault_errs {a : Nat} {bytes : List Byte} {errs : List Transaction}
    (ho : Outputs s t a bytes errs) (size : Nat) : errs.filterMap (Transaction.fault size) = [] := by
  refine List.filterMap_eq_nil_iff.mpr fun x hx => ?_
  obtain ⟨e, info, rfl⟩ := ho.events x hx
  rfl

/-- The writes among the outputs of an operation are those of its run. -/
theorem Outputs.mem_dstTransactions_of_dstWr {a b : Nat} {v : Byte} {bytes : List Byte} {errs : List Transaction}
    (ho : Outputs s t a bytes errs) (h : Transaction.dstWr b v ∈ dstTransactions a bytes ++ errs) :
    Transaction.dstWr b v ∈ dstTransactions a bytes := by
  refine (List.mem_append.mp h).resolve_right fun hx => ?_
  obtain ⟨e, info, heq⟩ := ho.events _ hx
  cases heq

/-- Settles O41: an operation puts out one run of writes (`exec_outputs`), whose addresses at or above `c_size` are its
faults and lose their value. -/
theorem outsideWritesAreRecorded : Obligations.OutsideWritesAreRecorded := by
  intro s i t h
  obtain ⟨a, bytes, errs, ho, _⟩ := exec_outputs h
  refine ⟨dstTransactions a bytes ++ errs, ho.trace, ?_, fun hwf b v hmem hout => ?_⟩
  · rw [ho.faults, List.filterMap_append, filterMap_fault_dstTransactions, ho.filterMap_fault_errs, List.append_nil]
  · have hrun := addr_of_mem_dstTransactions (ho.mem_dstTransactions_of_dstWr hmem)
    rw [ho.dst, Memory.read_surfaceWrites bytes hwf, if_pos hrun, if_neg (by omega)]

/-- Under the invariant a RAW copy ends inside the surface, by its bounds check (42_decoder R167, R168), and so does a
segment the guard has passed (R175): an operation that records a fault expands a segment without the guard. -/
theorem exec_unguarded_of_faults_ne (hs : s.Inv) (h : exec i s = .next t) (hf : t.faults ≠ s.faults) :
    s.cfg.rleGuard = false ∧ s.running = true ∧ s.cPhase = .rle ∧ s.cSeg ≠ none := by
  obtain ⟨a, bytes, errs, ho, hw⟩ := exec_outputs h
  have hne : bytes ≠ [] := by
    rintro rfl
    exact hf (by rw [ho.faults, outOfSurface, List.append_nil])
  have hout : ¬a + bytes.length ≤ s.cSize.toNat := fun hin =>
    hf (by rw [ho.faults, outOfSurface_eq_nil hin, List.append_nil])
  obtain ⟨_, _, _, hraw, _, hseg⟩ := hs
  obtain ⟨hr, ⟨hp, _, rfl, hl⟩ | ⟨g, hp, hg, rfl, hl⟩⟩ := hw hne
  · obtain ⟨_, hend, hrd⟩ := hraw hp
    rw [State.rawEnd] at hend
    have hle := State.granted_le s (s.cLen.toNat - s.rd)
    omega
  · obtain ⟨_, _, hmoved, hguard⟩ := hseg g hg
    refine ⟨Bool.eq_false_iff.mpr fun hgd => ?_, hr, hp, by simp [hg]⟩
    have hend := hguard hgd
    have hle := State.granted_le s (decodedBytes (segCountM1 g.header) - g.moved)
    omega

/-- Settles O42: a step that runs no operation records nothing, and one that does is `exec_unguarded_of_faults_ne`. -/
theorem onlyUnguardedRleLeavesTheSurface : Obligations.OnlyUnguardedRleLeavesTheSurface := by
  intro s t hs h hf
  rcases step_cases h with
    ⟨_, o, b, rfl, _, _, _, hx⟩ | ⟨_, _, rfl⟩ | ⟨_, _, _, hx⟩ | ⟨_, _, _, _, _, rfl⟩ | ⟨_, rfl⟩
  · exact exec_unguarded_of_faults_ne (s := (s.withInputs s.inputs.tail).withBurst b) hs hx hf
  · exact absurd rfl hf
  · exact exec_unguarded_of_faults_ne (s := s.withInputs s.inputs.tail) hs hx hf
  · exact absurd rfl hf
  · exact absurd rfl hf

end Sys2Proof.Machine
end

section
/-! The family 30_encoding: the round trip of the encodings, the producer's dispatch and the fields of a header. -/

namespace Sys2Proof

variable {e : Endian} {i : Instr} {k : BitVec 7} {kd : Kind} {bytes rest : List Byte}

/-! ## Kinds and command bytes -/

@[simp] theorem decodeKind_kindCode (kd : Kind) : decodeKind (kindCode kd) = some kd := by
  cases kd <;> rfl

/-- A kind that is neither of the two codes of 30_encoding R84 is unknown. -/
theorem decodeKind_eq_none_of_toNat (h1 : k.toNat ≠ 1) (h2 : k.toNat ≠ 2) : decodeKind k = none := by
  have hraw : k ≠ kindRawBlt := fun h => h1 (congrArg BitVec.toNat h)
  have hrle : k ≠ kindRleBlt := fun h => h2 (congrArg BitVec.toNat h)
  rw [decodeKind, if_neg hraw, if_neg hrle]

/-- `KIND` is bits 6:0 of a command byte (30_encoding R83). -/
@[simp] theorem toNat_commandByte_mod : ∀ k : BitVec 7, (commandByte k).toNat % 128 = k.toNat := by decide

theorem isCommand_eq_getLsbD (c : Byte) : isCommand c = c.getLsbD 7 := by
  rw [isCommand_iff_msb, BitVec.msb_eq_getLsbD_last]

/-- A byte with bit 7 set is the command byte of its `KIND` field (30_encoding R83). -/
theorem exists_eq_commandByte {c : Byte} (h : c.getLsbD 7 = true) : ∃ k, c = commandByte k :=
  ⟨kindField c, (commandByte_kindField c (by rw [isCommand_eq_getLsbD, h])).symm⟩

theorem firstBitClear_cons {c : Byte} (h : c.getLsbD 7 = false) : firstBitClear (c :: rest) = true := by
  rw [firstBitClear, ← isCommand_iff_msb, isCommand_eq_getLsbD, h, Bool.not_false]

/-! ## Decoding a chunk by its form -/

theorem decode_chunk_cont (hb : firstBitClear bytes = true) (hl : bytes.length ≤ maxChunk) :
    decode e .chunk bytes = .ok (.cont bytes) := by
  rw [decode_chunk e _ hl, decodeChunkForm_cont e _ hb]

theorem decode_chunk_unknown (hk : decodeKind k = none) (hl : (commandByte k :: rest).length ≤ maxChunk) :
    decode e .chunk (commandByte k :: rest) = .ok (.startUnknown k rest) := by
  rw [decode_chunk e _ hl, decodeChunkForm_cmd, hk]

theorem decode_chunk_known (hl : (commandByte (kindCode kd) :: rest).length ≤ maxChunk) :
    decode e .chunk (commandByte (kindCode kd) :: rest) = .ok (decodeStart e kd rest) := by
  rw [decode_chunk e _ hl, decodeChunkForm_cmd, decodeKind_kindCode]

theorem decode_chunk_runt (kd : Kind) (hr : rest.length < 8) :
    decode e .chunk (commandByte (kindCode kd) :: rest) =
      .ok (match kd with | .rawBlt => .startRuntRaw rest | .rleBlt => .startRuntRle rest) := by
  have hl : (commandByte (kindCode kd) :: rest).length ≤ maxChunk := by
    rw [List.length_cons, maxChunk]
    omega
  rw [decode_chunk_known hl]
  exact congrArg Except.ok (decodeStart_short e kd rest hr)

/-- After byte 0 a chunk with all of its header has four two-byte fields (30_encoding R85). -/
theorem exists_header_fields (h : 8 ≤ rest.length) :
    ∃ x0 x1 y0 y1 w0 w1 h0 h1 p, rest = x0 :: x1 :: y0 :: y1 :: w0 :: w1 :: h0 :: h1 :: p := by
  rcases rest with _ | ⟨x0, _ | ⟨x1, _ | ⟨y0, _ | ⟨y1, _ | ⟨w0, _ | ⟨w1, _ | ⟨h0, _ | ⟨h1, p⟩⟩⟩⟩⟩⟩⟩⟩
  case cons.cons.cons.cons.cons.cons.cons.cons => exact ⟨_, _, _, _, _, _, _, _, _, rfl⟩
  all_goals simp at h

/-! ## The round trip -/

theorem decode_encodeStart (kd : Kind) (x y w h : Half) (p : List Byte) (hp : startPayloadFits p = true) :
    decode e .chunk (encodeStart e (kindCode kd) x y w h p) =
      .ok (match kd with | .rawBlt => .startRawBlt x y w h p | .rleBlt => .startRleBlt x y w h p) := by
  have hl : (encodeStart e (kindCode kd) x y w h p).length ≤ maxChunk := by
    rw [length_encodeStart]
    exact of_decide_eq_true hp
  rw [decode_chunk e _ hl]
  exact congrArg Except.ok (decodeChunkForm_start e kd x y w h p)

theorem runtRestFits_iff : runtRestFits rest = true ↔ rest.length < 8 := by
  rw [runtRestFits, hdrLen, decide_eq_true_iff]
  omega

/-- What a well-formed operation is encoded as decodes to it, in the space of its encoding. -/
theorem decode_of_encode {sp : Space} (hw : i.wf = true) (he : encode e i = some (sp, bytes)) :
    decode e sp bytes = .ok i := by
  cases i <;> cases he
  case startRawBlt x y w h p => exact decode_encodeStart .rawBlt x y w h p hw
  case startRleBlt x y w h p => exact decode_encodeStart .rleBlt x y w h p hw
  case startRuntRaw rest => exact decode_chunk_runt .rawBlt (runtRestFits_iff.mp hw)
  case startRuntRle rest => exact decode_chunk_runt .rleBlt (runtRestFits_iff.mp hw)
  case startUnknown k rest =>
    obtain ⟨hk, hl⟩ := Bool.and_eq_true_iff.mp hw
    refine decode_chunk_unknown ((decodeKind_none k).mp hk) ?_
    rw [List.length_cons, Nat.add_comm]
    exact of_decide_eq_true hl
  case cont =>
    obtain ⟨hb, hl⟩ := Bool.and_eq_true_iff.mp hw
    exact decode_chunk_cont hb (of_decide_eq_true hl)
  case rawBlt => rfl
  case rleBlt => rfl
  case segLiteral b6 c => exact congrArg Except.ok (decodeSegment_encodeSegment b6 c).1
  case segRepeat b6 c => exact congrArg Except.ok (decodeSegment_encodeSegment b6 c).2

/-- The rows the opcode table calls internal. -/
theorem encode_eq_none_iff :
    encode e i = none ↔ i ∈ [Instr.commit, .signal, .invoke, .check, .take, .release, .reset] := by
  cases i <;> simp [encode]

/-- Settles O2, by cases on the operation: the law of each form reads its encoding back. -/
theorem encodedOperationDecodesBack : Obligations.EncodedOperationDecodesBack :=
  ⟨fun _ _ _ _ => decode_of_encode, fun _ _ => encode_eq_none_iff⟩

/-! ## The dispatch -/

/-- Settles O4: a byte with bit 7 set is the command byte of a kind, and the kind and the length select the form. -/
theorem chunkDispatch : Obligations.ChunkDispatch := by
  intro e bytes hl
  refine ⟨fun h => by rw [h]; rfl, ?_⟩
  rintro c rest rfl
  refine ⟨fun hc => decode_chunk_cont (firstBitClear_cons hc) hl, fun hc => ?_⟩
  obtain ⟨k, rfl⟩ := exists_eq_commandByte hc
  simp only [toNat_commandByte_mod, BitVec.ofNat_toNat, BitVec.setWidth_eq]
  refine ⟨fun h1 h2 => decode_chunk_unknown (decodeKind_eq_none_of_toNat h1 h2) hl, fun hk hr => ?_, fun hk hr => ?_,
    fun hk hh => ?_, fun hk hh => ?_⟩
  · obtain rfl : k = kindCode .rawBlt := BitVec.eq_of_toNat_eq hk
    exact decode_chunk_runt .rawBlt (Nat.lt_of_succ_lt_succ hr)
  · obtain rfl : k = kindCode .rleBlt := BitVec.eq_of_toNat_eq hk
    exact decode_chunk_runt .rleBlt (Nat.lt_of_succ_lt_succ hr)
  · obtain rfl : k = kindCode .rawBlt := BitVec.eq_of_toNat_eq hk
    obtain ⟨x0, x1, y0, y1, w0, w1, h0, h1, p, rfl⟩ := exists_header_fields (Nat.le_of_succ_le_succ hh)
    exact decode_chunk_known hl
  · obtain rfl : k = kindCode .rleBlt := BitVec.eq_of_toNat_eq hk
    obtain ⟨x0, x1, y0, y1, w0, w1, h0, h1, p, rfl⟩ := exists_header_fields (Nat.le_of_succ_le_succ hh)
    exact decode_chunk_known hl

/-! ## Fields -/

/-- `COUNT_M1` is bits 5:0 of a segment header (30_encoding R94). -/
theorem toNat_segCountM1 (h : Byte) : (segCountM1 h).toNat = h.toNat % 64 := by
  have hand : h.toNat &&& (0x3F#8).toNat = h.toNat % 64 := Nat.and_two_pow_sub_one_eq_mod h.toNat 6
  rw [segCountM1, sizeMask, BitVec.toNat_setWidth, BitVec.toNat_and, hand]
  exact Nat.mod_mod h.toNat 64

/-- Settles O5: the fields are those of `decodeSegment_eq` and `toNat_segCountM1`. -/
theorem segmentHeaderFields : Obligations.SegmentHeaderFields := by
  intro e h
  have hcount : pixelCount (segCountM1 h) = h.toNat % 64 + 1 := by rw [pixelCount, toNat_segCountM1]
  exact ⟨segCountM1 h, congrArg Except.ok (Machine.decodeSegment_eq h), hcount, by omega, by omega⟩

/-- Settles O6: in either order the sum of the two bytes is below `2^16`. -/
theorem headerFieldByteOrder : Obligations.HeaderFieldByteOrder := by
  intro b0 b1
  have h0 := b0.isLt
  have h1 := b1.isLt
  exact ⟨Nat.mod_eq_of_lt (by omega), Nat.mod_eq_of_lt (by omega)⟩

/-! ## The worked encodings -/

/-- Settles O1: the printed bytes are what `encode` gives, so they decode back by `decode_of_encode`. -/
theorem workedEncodings : Obligations.WorkedEncodings := by
  have hle : encode .le (.startRawBlt 0#16 0#16 10#16 1#16 []) =
      some (.chunk, [0x81#8, 0#8, 0#8, 0#8, 0#8, 0x0A#8, 0#8, 0x01#8, 0#8]) := by decide
  have hbe : encode .be (.startRawBlt 0#16 0#16 10#16 1#16 []) =
      some (.chunk, [0x81#8, 0#8, 0#8, 0#8, 0#8, 0#8, 0x0A#8, 0#8, 0x01#8]) := by decide
  have hliteral : encode .le (.segLiteral false 63#6) = some (.segment, [0x3F#8]) := by decide
  have hrepeat : encode .le (.segRepeat false 0#6) = some (.segment, [0x80#8]) := by decide
  exact ⟨hle, hbe, decode_of_encode rfl hle, decode_of_encode rfl hbe, by decide, by decide,
    decode_of_encode rfl hliteral, decode_of_encode rfl hrepeat⟩

end Sys2Proof
end

section
/-! The family 40_reassembler, the forms of a chunk: each chunk has exactly one, and a step runs it. -/

namespace Sys2Proof

variable {e : Endian} {i : Instr} {k : BitVec 7} {kd : Kind} {bytes rest : List Byte}

/-! ## Encoding what the decoder found -/

theorem decodeKind_eq_some (h : decodeKind k = some kd) : k = kindCode kd := by
  unfold decodeKind at h
  split_ifs at h with hraw hrle
  · cases h; exact hraw
  · cases h; exact hrle

/-- A START chunk or a runt is encoded as the bytes it was decoded from, whatever its length (30_encoding R85). -/
theorem encode_decodeStart (e : Endian) (kd : Kind) (rest : List Byte) :
    encode e (decodeStart e kd rest) = some (.chunk, commandByte (kindCode kd) :: rest) := by
  by_cases hr : rest.length < 8
  · rw [decodeStart_short e kd rest hr]
    cases kd <;> rfl
  · obtain ⟨x0, x1, y0, y1, w0, w1, h0, h1, p, rfl⟩ := exists_header_fields (Nat.le_of_not_lt hr)
    cases kd <;> simp [decodeStart, encode, encodeStart, halfBytes_u16, kindCode]

/-- A chunk of any length is the encoding of the form it decodes to. -/
theorem encode_decodeChunkForm (e : Endian) (bytes : List Byte) :
    encode e (decodeChunkForm e bytes) = some (.chunk, bytes) := by
  rcases bytes with _ | ⟨c, rest⟩
  · rfl
  · cases hc : c.getLsbD 7
    · rw [decodeChunkForm_cont e _ (firstBitClear_cons hc)]
      rfl
    · obtain ⟨k, rfl⟩ := exists_eq_commandByte hc
      rw [decodeChunkForm_cmd]
      cases hk : decodeKind k with
      | none => rfl
      | some kd =>
        rw [decodeKind_eq_some hk]
        exact encode_decodeStart e kd rest

theorem decode_chunk_eq_ok_iff :
    decode e .chunk bytes = .ok i ↔ bytes.length ≤ maxChunk ∧ i = decodeChunkForm e bytes := by
  by_cases hl : bytes.length ≤ maxChunk
  · rw [decode_chunk e bytes hl, Except.ok.injEq, eq_comm]
    exact (and_iff_right hl).symm
  · have herr : decode e .chunk bytes = .error .chunkTooLong := if_pos (Nat.lt_of_not_le hl)
    simp [herr, hl]

/-- Settles O3: the form is the decoder's, and any other operation with that encoding decodes from it (`decode_of_encode`). -/
theorem everyChunkIsExactlyOneForm : Obligations.EveryChunkIsExactlyOneForm := by
  intro e bytes hl
  have hd := decode_chunk e bytes hl
  refine ⟨_, hd, wf_decodeChunkForm e bytes hl, encode_decodeChunkForm e bytes, fun j hw he => ?_⟩
  exact Except.ok.inj ((decode_of_encode hw he).symm.trans hd)

@[simp] theorem toNat_commandByte : ∀ k : BitVec 7, (commandByte k).toNat = 128 + k.toNat := by decide

namespace Machine

variable {s : State}

/-- Settles O51. -/
theorem stepRunsTheDecodedChunk : Obligations.StepRunsTheDecodedChunk := by
  intro s bytes rest i hi hd
  obtain ⟨hl, rfl⟩ := decode_chunk_eq_ok_iff.mp hd
  rw [step_chunk hi, if_neg (Nat.not_lt.mpr hl)]

/-! ## Chunks that are only reported -/

/-- Settles O8: the command byte of a kind is `128 + kind`. -/
theorem unknownKindIsReportedAndIgnored : Obligations.UnknownKindIsReportedAndIgnored := by
  intro s kind rest _
  rw [← toNat_commandByte]
  rfl

/-- Settles O9. -/
theorem runtStartIsReportedAndIgnored : Obligations.RuntStartIsReportedAndIgnored :=
  fun _ _ _ => ⟨rfl, rfl⟩

/-- Settles O14. -/
theorem commitAndSignal : Obligations.CommitAndSignal :=
  fun s => ⟨⟨s.committed, rfl, nextIdx_val s.head, rfl⟩, rfl⟩

/-! ## What a CONT chunk does -/

theorem exec_cont_of_drop (bs : List Byte) (hd : s.drop = true) : exec (.cont bs) s = .next s := by
  simpa [exec, hd] using execCont_cases bs s

theorem exec_cont_of_fits {bs : List Byte} (hd : s.drop = false)
    (hf : (s.slot s.head).length.toNat + bs.length ≤ s.cfg.capacity.bytes) :
    exec (.cont bs) s = .next (s.append bs) := by
  simpa [exec, hd, hf, Nat.not_lt.mpr hf] using execCont_cases bs s

theorem exec_cont_of_exceeds {bs : List Byte} (hd : s.drop = false)
    (hx : s.cfg.capacity.bytes < (s.slot s.head).length.toNat + bs.length) :
    exec (.cont bs) s =
      .next { s.raise .oversize ((s.slot s.head).length.toNat + bs.length) with drop := true } := by
  simpa [exec, hd, hx, Nat.not_le.mpr hx] using execCont_cases bs s

/-- Settles O12. -/
theorem droppedContinuationDoesNothing : Obligations.DroppedContinuationDoesNothing :=
  fun _ bytes => exec_cont_of_drop bytes

/-- Settles O11. -/
theorem oversizeContinuationIsDropped : Obligations.OversizeContinuationIsDropped :=
  fun _ _ => exec_cont_of_exceeds

/-! ## What an accepted START chunk and an append leave -/

theorem State.setSlot_slot (s : State) (i : SlotIdx) : s.setSlot i (s.slot i) = s := by
  by_cases hz : i = 0 <;> simp [State.setSlot, State.slot, hz]

theorem State.acceptStart_slot_head (s : State) (k : Kind) (x y w h : Half) (p : List Byte) :
    (s.acceptStart k x y w h p).slot s.head =
      { kind := k, x := x, y := y, width := w, height := h, length := BitVec.ofNat 32 p.length
        payload := Memory.writeBytes (s.slot s.head).payload 0 p } := by
  rw [State.acceptStart_eq]
  exact State.setSlot_slot_self s s.head _

theorem State.acceptStart_slot_ne (s : State) (k : Kind) (x y w h : Half) (p : List Byte) {j : SlotIdx}
    (hj : j ≠ s.head) : (s.acceptStart k x y w h p).slot j = s.slot j := by
  rw [State.acceptStart_eq]
  exact State.setSlot_slot_ne s _ hj

theorem State.acceptStart_head (s : State) (k : Kind) (x y w h : Half) (p : List Byte) :
    (s.acceptStart k x y w h p).head = if hdrLen + p.length < maxChunk then nextIdx s.head else s.head := by
  rw [State.acceptStart_eq]

theorem State.append_slot_head (s : State) (bs : List Byte) :
    (s.append bs).slot s.head =
      { s.slot s.head with
        length := BitVec.ofNat 32 ((s.slot s.head).length.toNat + bs.length)
        payload := Memory.writeBytes (s.slot s.head).payload (s.slot s.head).length.toNat bs } := by
  rw [State.append_eq]
  exact State.setSlot_slot_self s s.head _

theorem State.append_slot_ne (s : State) (bs : List Byte) {j : SlotIdx} (hj : j ≠ s.head) :
    (s.append bs).slot j = s.slot j := by
  rw [State.append_eq]
  exact State.setSlot_slot_ne s _ hj

theorem State.append_head (s : State) (bs : List Byte) :
    (s.append bs).head = if bs.length < maxChunk then nextIdx s.head else s.head := by
  rw [State.append_eq]

/-- A length up to `CAPACITY` fits its register (assumption log 18). -/
theorem toNat_length_of_le_capacity {n : Nat} (c : Capacity) (h : n ≤ c.bytes) : (BitVec.ofNat 32 n).toNat = n :=
  Nat.mod_eq_of_lt (by have := c.atMost; omega)

theorem startPayload_le_capacity {n : Nat} (c : Capacity) (h : hdrLen + n ≤ maxChunk) : n ≤ c.bytes := by
  have := c.atLeast
  simp only [hdrLen, maxChunk] at h
  omega

/-- Settles O7: the fields of `State.acceptStart_eq`, and the bytes of `Memory.read_writeBytes` from index 0 on. -/
theorem startChunkFillsTheHeadSlot : Obligations.StartChunkFillsTheHeadSlot := by
  intro s k x y w h p i hi hl
  have hexec : exec i s = .next (s.acceptStart k x y w h p) := by
    rcases hi with ⟨rfl, rfl⟩ | ⟨rfl, rfl⟩ <;> rfl
  refine ⟨_, hexec, ?_⟩
  rw [State.acceptStart_slot_head]
  refine ⟨rfl, rfl, rfl, rfl, rfl, toNat_length_of_le_capacity s.cfg.capacity (startPayload_le_capacity _ hl),
    fun a ha => ?_, fun a ha => ?_, fun j hj => s.acceptStart_slot_ne k x y w h p hj, ?_⟩
  · rw [Memory.read_writeBytes, if_pos (by omega), Nat.sub_zero]
  · rw [Memory.read_writeBytes, if_neg (by omega)]
  · rw [State.acceptStart_eq]
    refine ⟨rfl, fun hs => ?_, fun hf => ?_, rfl⟩
    · simp [hs, nextIdx_val]
    · simp [hf]

/-- Settles O10: the fields of `State.append_eq`, and the bytes of `Memory.read_writeBytes` from the length on. -/
theorem continuationAppends : Obligations.ContinuationAppends := by
  intro s bs hl hd hf
  refine ⟨_, exec_cont_of_fits hd hf, ?_⟩
  rw [State.append_slot_head]
  refine ⟨toNat_length_of_le_capacity s.cfg.capacity hf, fun a ha => ?_, fun a ha => ?_, rfl,
    fun j hj => s.append_slot_ne bs hj, ?_⟩
  · rw [Memory.read_writeBytes, if_pos (by omega), Nat.add_sub_cancel_left]
  · rw [Memory.read_writeBytes, if_neg (by omega)]
  · rw [State.append_eq]
    refine ⟨fun hs => ?_, fun hfull => ?_, rfl⟩
    · simp [hs, nextIdx_val]
    · simp [hfull]

/-- The append of no bytes is a commit of `slot[head]` as it stands (40_reassembler R125). -/
theorem State.append_nil (s : State) :
    s.append [] = { s.committed with races := (s.storePayload (s.slot s.head).length.toNat []).races } := by
  have hslot : { s.slot s.head with
      length := BitVec.ofNat 32 ((s.slot s.head).length.toNat + ([] : List Byte).length)
      payload := Memory.writeBytes (s.slot s.head).payload (s.slot s.head).length.toNat [] } = s.slot s.head := by
    simp [Memory.writeBytes]
  rw [State.append_eq, hslot, State.setSlot_slot]
  rfl

/-- Settles O13: under the invariant the length is within `CAPACITY`, so no bytes more still fit. -/
theorem emptyChunkCommitsTheSlotAsItStands : Obligations.EmptyChunkCommitsTheSlotAsItStands := by
  intro s hs hd
  obtain ⟨_, _, hlen⟩ := hs.slot s.head
  have hexec := exec_cont_of_fits (bs := []) hd hlen
  rw [State.append_nil] at hexec
  exact ⟨_, hexec, nextIdx_val s.head, rfl⟩

end Machine
end Sys2Proof
end

section
/-! The family 40_reassembler, runs: what chunks with any turns of the consumer between them leave behind. -/

namespace Sys2Proof.Machine

variable {s t u : State} {i : Instr} {m : Message} {got : List Byte} {cs : List (List Byte)} {rest : List Input}

/-! ## Chunks while dropping (40_reassembler R122) -/

/-- While `drop` is set a chunk that is no accepted START changes nothing but the history: a runt or an unknown kind is
reported, a CONT chunk is not. -/
theorem exec_chunkForm_of_drop (hc : isChunkForm i = true) (ha : isAcceptedStart i = false) (hd : s.drop = true) :
    ∃ new, (∀ x ∈ new, Transaction.isErrOut x = true) ∧ exec i s = .next { s with trace := s.trace ++ new } := by
  have hevent (e : ErrorEvent) (w : Nat) : ∃ new, (∀ x ∈ new, Transaction.isErrOut x = true) ∧
      Host.Outcome.next (s.raise e w) = (.next { s with trace := s.trace ++ new } : Host.Outcome State Fault Refusal) :=
    ⟨[.errOut e (BitVec.ofNat 64 w)], by simp [Transaction.isErrOut], rfl⟩
  cases i <;> simp only [isChunkForm, isAcceptedStart, Bool.false_eq_true, Bool.true_eq_false] at hc ha
  case startRuntRaw rest => exact hevent .runtStart (1 + rest.length)
  case startRuntRle rest => exact hevent .runtStart (1 + rest.length)
  case startUnknown kind rest => exact hevent .unknownKind (commandByte kind).toNat
  case cont bs => exact ⟨[], nofun, by rw [exec_cont_of_drop bs hd, List.append_nil]⟩

theorem step_chunk_of_drop {bytes : List Byte} (hd : s.drop = true)
    (hn : notAcceptedStart s.cfg.hdrEndian bytes = true) (hi : s.inputs = .chunk bytes :: rest) :
    ∃ new, (∀ x ∈ new, Transaction.isErrOut x = true) ∧
      step s = .next { s with inputs := rest, trace := s.trace ++ new } := by
  unfold notAcceptedStart at hn
  split at hn
  next i hdec =>
    rw [stepRunsTheDecodedChunk s bytes rest i hi hdec]
    obtain ⟨_, rfl⟩ := decode_chunk_eq_ok_iff.mp hdec
    exact exec_chunkForm_of_drop (s := s.withInputs rest) (isChunkForm_decodeChunkForm ..) (by simpa using hn) hd
  next => exact absurd hn Bool.false_ne_true

/-- A run of traffic without an accepted START while `drop` is set: turns leave the producer alone, and
chunks change nothing but the history. -/
theorem run_traffic_of_drop {evs : List Input} (hd : s.drop = true) (htr : ∀ ev ∈ evs, ev.isTraffic = true)
    (hn : ∀ bytes ∈ evs.filterMap Input.delivered, notAcceptedStart s.cfg.hdrEndian bytes = true)
    (hi : s.inputs = evs ++ rest) :
    ∃ t, Host.Core.run core evs.length s = .next t ∧ t.inputs = rest ∧ SameProducer s t ∧
      ((∀ ev ∈ evs, ∃ bytes, ev = .chunk bytes) →
        ∃ new, (∀ x ∈ new, Transaction.isErrOut x = true) ∧ t = { s with inputs := rest, trace := s.trace ++ new }) := by
  induction evs generalizing s with
  | nil =>
    have hi : s.inputs = rest := hi
    exact ⟨s, rfl, hi, .refl s, fun _ => ⟨[], nofun, by rw [List.append_nil, ← hi]⟩⟩
  | cons ev evs ih =>
    obtain ⟨hev, hevs⟩ := List.forall_mem_cons.mp htr
    cases ev with
    | surface | reset => exact absurd hev Bool.false_ne_true
    | turn b =>
      obtain ⟨u, hu, hui, hsu⟩ := step_turn_frame hi
      obtain ⟨t, ht, hti, hut, _⟩ := ih (hsu.drop.trans hd) hevs (by rw [hsu.cfg]; exact hn) hui
      refine ⟨t, (run_succ hu _).trans ht, hti, hsu.trans hut, fun hall => ?_⟩
      obtain ⟨_, hturn⟩ := hall _ List.mem_cons_self
      cases hturn
    | chunk bytes =>
      obtain ⟨hb, hn⟩ := List.forall_mem_cons.mp hn
      obtain ⟨new, hnew, hu⟩ := step_chunk_of_drop hd hb hi
      obtain ⟨t, ht, hti, hut, hex⟩ := ih (s := { s with inputs := evs ++ rest, trace := s.trace ++ new }) hd hevs hn rfl
      refine ⟨t, (run_succ hu _).trans ht, hti,
        ⟨hut.slot0, hut.slot1, hut.head, hut.drop, hut.cfg⟩, fun hall => ?_⟩
      obtain ⟨new', hnew', rfl⟩ := hex (List.forall_mem_cons.mp hall).2
      exact ⟨new ++ new', List.forall_mem_append.mpr ⟨hnew, hnew'⟩, by rw [← List.append_assoc]⟩

/-- Settles O16, by induction on the inputs (`run_traffic_of_drop`). -/
theorem nothingCommitsWhileDropping : Obligations.NothingCommitsWhileDropping := by
  intro s evs rest hd htr hn hi
  obtain ⟨t, ht, hti, hsame, hex⟩ := run_traffic_of_drop hd htr hn hi
  exact ⟨t, ht, hti, hsame.drop.trans hd, hsame.head, hsame.slot0, hsame.slot1, hex⟩

/-! ## The delivery of a message (40_reassembler R121) -/

/-- `slot[i]` of `t` has the descriptor of `m` and the payload `got`, and every other Slot is as in `s`. -/
structure Stored (s : State) (i : SlotIdx) (m : Message) (got : List Byte) (t : State) : Prop where
  kind : (t.slot i).kind = m.kind
  x : (t.slot i).x = m.x
  y : (t.slot i).y = m.y
  width : (t.slot i).width = m.width
  height : (t.slot i).height = m.height
  length : (t.slot i).length.toNat = got.length
  bytes : ∀ a, a < got.length → Memory.read (t.slot i).payload a = got[a]?
  others : ∀ j, j ≠ i → t.slot j = s.slot j

theorem Stored.of_slots {i : SlotIdx} (h : Stored s i m got t) (hs : ∀ j, u.slot j = t.slot j) : Stored s i m got u where
  kind := by rw [hs, h.kind]
  x := by rw [hs, h.x]
  y := by rw [hs, h.y]
  width := by rw [hs, h.width]
  height := by rw [hs, h.height]
  length := by rw [hs, h.length]
  bytes a ha := by rw [hs, h.bytes a ha]
  others j hj := by rw [hs, h.others j hj]

theorem Stored.acceptStart (hs : ∀ j, t.slot j = s.slot j) (hl : hdrLen + m.first.length ≤ maxChunk) :
    Stored s t.head m m.first (t.acceptStart m.kind m.x m.y m.width m.height m.first) where
  kind := by rw [State.acceptStart_slot_head]
  x := by rw [State.acceptStart_slot_head]
  y := by rw [State.acceptStart_slot_head]
  width := by rw [State.acceptStart_slot_head]
  height := by rw [State.acceptStart_slot_head]
  length := by
    rw [State.acceptStart_slot_head]
    exact toNat_length_of_le_capacity _ (startPayload_le_capacity t.cfg.capacity hl)
  bytes a ha := by
    rw [State.acceptStart_slot_head, Memory.read_writeBytes, if_pos (by omega), Nat.sub_zero]
  others j hj := (t.acceptStart_slot_ne _ _ _ _ _ _ hj).trans (hs j)

theorem Stored.append {bs : List Byte} (h : Stored s t.head m got t) (hf : (got ++ bs).length ≤ t.cfg.capacity.bytes) :
    Stored s t.head m (got ++ bs) (t.append bs) where
  kind := by rw [State.append_slot_head]; exact h.kind
  x := by rw [State.append_slot_head]; exact h.x
  y := by rw [State.append_slot_head]; exact h.y
  width := by rw [State.append_slot_head]; exact h.width
  height := by rw [State.append_slot_head]; exact h.height
  length := by
    rw [State.append_slot_head, h.length, ← List.length_append]
    exact toNat_length_of_le_capacity _ hf
  bytes a ha := by
    rw [List.length_append] at ha
    rw [State.append_slot_head, h.length, Memory.read_writeBytes]
    by_cases hold : a < got.length
    · rw [if_neg (by omega), h.bytes a hold, List.getElem?_append_left hold]
    · rw [if_pos (by omega), List.getElem?_append_right (by omega)]
  others j hj := (t.append_slot_ne bs hj).trans (h.others j hj)

/-- How far the delivery of `m`, begun in `s`, has come in a state: the chunks still to land, and what the producer
holds. -/
inductive Delivery (s : State) (m : Message) : List (List Byte) → State → Prop
  /-- no chunk has landed -/
  | waiting {cs : List (List Byte)} {t : State} (hcs : cs = m.chunks s.cfg.hdrEndian)
      (same : SameProducer s t) : Delivery s m cs t
  /-- chunks have landed and a CONT chunk is to come: what arrived is in the Slot, and nothing is committed -/
  | filling {cs : List (List Byte)} {t : State} (got : List Byte) (ends : contsEnd cs = true)
      (payload : got ++ cs.flatten = m.payload) (stored : Stored s s.head m got t) (head : t.head = s.head)
      (drop : t.drop = false) (cfg : t.cfg = s.cfg) : Delivery s m cs t
  /-- all chunks have landed and the Slot is committed -/
  | committed {t : State} (stored : Stored s s.head m m.payload t) (head : t.head = nextIdx s.head) : Delivery s m [] t

/-- The producer's fields say how far the delivery has come. -/
theorem Delivery.of_sameProducer (h : Delivery s m cs t) (hs : SameProducer t u) : Delivery s m cs u := by
  cases h with
  | waiting hcs same => exact .waiting hcs (same.trans hs)
  | filling got ends payload stored head drop cfg =>
    exact .filling got ends payload (stored.of_slots hs.slot) (hs.head.trans head) (hs.drop.trans drop) (hs.cfg.trans cfg)
  | committed stored head => exact .committed (stored.of_slots hs.slot) (hs.head.trans head)

/-- While chunks are to come `head` has not moved. -/
theorem Delivery.head_eq (h : Delivery s m cs t) (hne : cs ≠ []) : t.head = s.head := by
  cases h with
  | waiting _ same => exact same.head
  | filling _ _ _ _ head _ _ => exact head
  | committed => exact absurd rfl hne

/-- With no chunk to come the message is committed. -/
theorem Delivery.stored_of_nil (h : Delivery s m [] t) : Stored s s.head m m.payload t ∧ t.head = nextIdx s.head := by
  cases h with
  | waiting hcs => cases hcs
  | filling _ ends => cases ends
  | committed stored head => exact ⟨stored, head⟩

/-! ## What each chunk of a message does -/

theorem Message.framed_nil (hr : m.rest = []) (hf : m.framed = true) : hdrLen + m.first.length < maxChunk := by
  simpa [Message.framed, hr] using hf

theorem Message.framed_cons {c : List Byte} (hr : m.rest = c :: cs) (hf : m.framed = true) :
    hdrLen + m.first.length = maxChunk ∧ contsEnd (c :: cs) = true := by
  simpa [Message.framed, hr] using hf

theorem Message.framed_first_le (hm : m.framed = true) : hdrLen + m.first.length ≤ maxChunk := by
  cases hr : m.rest with
  | nil => exact (m.framed_nil hr hm).le
  | cons c cs => exact (m.framed_cons hr hm).1.le

theorem contsEnd_cons_cons {c c' : List Byte} (h : contsEnd (c :: c' :: cs) = true) :
    firstBitClear c = true ∧ c.length = maxChunk ∧ contsEnd (c' :: cs) = true := by
  simpa [contsEnd, and_assoc] using h

theorem contsEnd_singleton {c : List Byte} (h : contsEnd [c] = true) : firstBitClear c = true ∧ c.length < maxChunk := by
  simpa [contsEnd] using h

theorem contsEnd_head {c : List Byte} (h : contsEnd (c :: cs) = true) : firstBitClear c = true ∧ c.length ≤ maxChunk := by
  cases cs with
  | nil => exact (contsEnd_singleton h).imp_right Nat.le_of_lt
  | cons c' cs =>
    obtain ⟨hb, hfull, _⟩ := contsEnd_cons_cons h
    exact ⟨hb, hfull.le⟩

/-- The START chunk is all of a message without CONT chunks, which it commits, and otherwise fills its Slot. -/
theorem Delivery.acceptStart (hm : m.framed = true) (same : SameProducer s t) :
    Delivery s m m.rest (t.acceptStart m.kind m.x m.y m.width m.height m.first) := by
  have hhead := t.acceptStart_head m.kind m.x m.y m.width m.height m.first
  have hstored := Stored.acceptStart same.slot (m := m) (Message.framed_first_le hm)
  rw [same.head] at hhead hstored
  cases hr : m.rest with
  | nil =>
    have hshort := m.framed_nil hr hm
    have hpay : m.payload = m.first := by simp [Message.payload, hr]
    exact .committed (by rw [hpay]; exact hstored) (hhead.trans (if_pos hshort))
  | cons c cs =>
    obtain ⟨hfull, hends⟩ := m.framed_cons hr hm
    refine .filling m.first hends (by rw [Message.payload, hr]) hstored (hhead.trans (if_neg hfull.not_lt)) ?_ ?_
    · rw [State.acceptStart_eq]
    · rw [State.acceptStart_eq]; exact same.cfg

/-- A full CONT chunk leaves its Slot filling, and the short one, the last, commits it. -/
theorem Delivery.append {c : List Byte} (ends : contsEnd (c :: cs) = true)
    (payload : got ++ (c :: cs).flatten = m.payload) (hf : m.payload.length ≤ s.cfg.capacity.bytes)
    (stored : Stored s s.head m got t) (head : t.head = s.head) (drop : t.drop = false) (cfg : t.cfg = s.cfg) :
    Delivery s m cs (t.append c) := by
  have hsofar : (got ++ c) ++ cs.flatten = m.payload := by rw [List.append_assoc, ← payload, List.flatten_cons]
  have hle : (got ++ c).length ≤ t.cfg.capacity.bytes := by
    rw [← hsofar, List.length_append] at hf
    rw [cfg]
    omega
  have hstored : Stored s s.head m (got ++ c) (t.append c) := by
    rw [← head] at stored ⊢
    exact stored.append hle
  have hhead := t.append_head c
  rw [head] at hhead
  cases cs with
  | nil =>
    obtain ⟨_, hshort⟩ := contsEnd_singleton ends
    rw [List.flatten_nil, List.append_nil] at hsofar
    exact .committed (hsofar ▸ hstored) (hhead.trans (if_pos hshort))
  | cons c' cs =>
    obtain ⟨_, hfull, hends⟩ := contsEnd_cons_cons ends
    refine .filling (got ++ c) hends hsofar hstored (hhead.trans (if_neg hfull.not_lt)) ?_ ?_
    · rw [State.append_eq]; exact drop
    · rw [State.append_eq]; exact cfg

theorem step_cont {c : List Byte} (hb : firstBitClear c = true) (hl : c.length ≤ maxChunk) (hd : s.drop = false)
    (hf : (s.slot s.head).length.toNat + c.length ≤ s.cfg.capacity.bytes) (hi : s.inputs = .chunk c :: rest) :
    step s = .next ((s.withInputs rest).append c) :=
  (stepRunsTheDecodedChunk s c rest _ hi (decode_chunk_cont hb hl)).trans (exec_cont_of_fits (s := s.withInputs rest) hd hf)

/-- The next chunk of a message that fits brings its delivery on by one chunk. -/
theorem Delivery.step_chunk {c : List Byte} (hm : m.framed = true) (hf : m.payload.length ≤ s.cfg.capacity.bytes)
    (h : Delivery s m (c :: cs) t) (hi : t.inputs = .chunk c :: rest) :
    ∃ u, step t = .next u ∧ u.inputs = rest ∧ Delivery s m cs u := by
  cases h with
  | waiting hcs same =>
    obtain ⟨rfl, rfl⟩ := List.cons.inj hcs
    rw [← same.cfg] at hi
    have same : SameProducer s (t.withInputs rest) := ⟨same.slot0, same.slot1, same.head, same.drop, same.cfg⟩
    exact ⟨_, step_encodeStart _ _ _ _ _ _ (Message.framed_first_le hm) hi, by rw [State.acceptStart_eq]; rfl,
      .acceptStart hm same⟩
  | filling got ends payload stored head drop cfg =>
    obtain ⟨hb, hl⟩ := contsEnd_head ends
    have hroom : (t.slot t.head).length.toNat + c.length ≤ t.cfg.capacity.bytes := by
      rw [← payload, List.flatten_cons, List.length_append, List.length_append] at hf
      rw [head, stored.length, cfg]
      omega
    exact ⟨_, step_cont hb hl drop hroom hi, by rw [State.append_eq]; rfl,
      .append (t := t.withInputs rest) ends payload hf (stored.of_slots fun _ => rfl) head drop cfg⟩

/-- A run of traffic brings the delivery on by the chunks it delivers: turns leave the producer alone. -/
theorem Delivery.run_traffic {evs : List Input} (hm : m.framed = true) (hf : m.payload.length ≤ s.cfg.capacity.bytes)
    (htr : ∀ ev ∈ evs, ev.isTraffic = true) (h : Delivery s m (evs.filterMap Input.delivered ++ cs) t)
    (hi : t.inputs = evs ++ rest) :
    ∃ u, Host.Core.run core evs.length t = .next u ∧ u.inputs = rest ∧ Delivery s m cs u := by
  induction evs generalizing t with
  | nil => exact ⟨t, rfl, hi, h⟩
  | cons ev evs ih =>
    obtain ⟨hev, hevs⟩ := List.forall_mem_cons.mp htr
    have hstep : ∃ u, step t = .next u ∧ u.inputs = evs ++ rest ∧
        Delivery s m (evs.filterMap Input.delivered ++ cs) u := by
      cases ev with
      | surface | reset => exact absurd hev Bool.false_ne_true
      | turn b =>
        obtain ⟨u, hu, hui, hs⟩ := step_turn_frame hi
        exact ⟨u, hu, hui, h.of_sameProducer hs⟩
      | chunk bytes => exact h.step_chunk hm hf hi
    obtain ⟨u, hu, hui, hdel⟩ := hstep
    rw [List.length_cons, run_succ hu]
    exact ih hevs hdel hui

/-- Settles O15: the delivery waits before the first chunk, has not moved `head` while a chunk is to come, and has committed
the message when none is (`Delivery.run_traffic`). -/
theorem messageCommitsItsWholePayload : Obligations.MessageCommitsItsWholePayload := by
  intro s m evs rest hm hf htr hdel hi
  have hwaiting : Delivery s m (evs.filterMap Input.delivered) s := .waiting hdel (.refl s)
  refine ⟨fun k u hlt hrun => ?_, ?_⟩
  · have hk : k < evs.length := by
      by_contra hge
      rw [List.take_of_length_le (by omega), hdel] at hlt
      exact Nat.lt_irrefl _ hlt
    have hcut : evs.filterMap Input.delivered =
        (evs.take k).filterMap Input.delivered ++ (evs.drop k).filterMap Input.delivered := by
      rw [← List.filterMap_append, List.take_append_drop]
    rw [hcut] at hwaiting
    rw [← List.take_append_drop k evs, List.append_assoc] at hi
    obtain ⟨v, hv, _, hd⟩ := hwaiting.run_traffic hm hf (fun ev he => htr ev (List.mem_of_mem_take he)) hi
    rw [List.length_take_of_le hk.le, hrun] at hv
    cases hv
    refine hd.head_eq fun hnil => ?_
    rw [← hdel, hcut, hnil, List.append_nil] at hlt
    exact Nat.lt_irrefl _ hlt
  · rw [← List.append_nil (evs.filterMap _)] at hwaiting
    obtain ⟨t, ht, hti, hd⟩ := hwaiting.run_traffic hm hf htr hi
    obtain ⟨hst, hhead⟩ := hd.stored_of_nil
    exact ⟨t, ht, hti, by rw [hhead, nextIdx_val], hst.kind, hst.x, hst.y, hst.width, hst.height, hst.length, hst.bytes,
      hst.others⟩

end Sys2Proof.Machine
end

section
/-! The family 40_reassembler, the whole path of a short RAW message: from its one chunk to the surface. -/

namespace Sys2Proof.Machine

variable {s : State} {v : Slot} {base : Nat} {p : List Byte}

/-! ## An invocation with no input left, stage by stage -/

/-- The wake-up is taken and the surface check passes (41_ring R146, 42_decoder R161). -/
theorem run_invoke_check (hi : s.inputs = []) (hr : s.running = false) (hp : s.pending = true)
    (ha : s.dstAttached = true) :
    Host.Core.run core 2 s = .next { (s.withBurst none).invoked with cPhase := .loop } := by
  have hcheck := step_check (s := (s.withBurst none).invoked) hi rfl rfl
  rw [run_succ (step_invoke hi hr hp), run_succ hcheck, run_zero, State.checked_eq]
  simp [ha]

/-- With an empty Ring the loop test ends the invocation (42_decoder R162). -/
theorem step_take_empty (hi : s.inputs = []) (hr : s.running = true) (hp : s.cPhase = .loop) (he : s.tail = s.head) :
    step s = .next (s.withBurst none).returned := by
  rw [step_take hi hr hp]
  exact congrArg Host.Outcome.next (if_pos he)

/-- The take of a RAW message that fits the surface starts its copy (42_decoder R163 to R167). -/
theorem State.taken_raw (hne : s.tail ≠ s.head) (hv : s.slot s.tail = v) (hb : dstOffset v.x v.y s.cStride = base)
    (hk : v.kind = .rawBlt) (hfit : base + v.length.toNat ≤ s.cSize.toNat) :
    s.taken = { s with
      cKind := v.kind, cX := v.x, cY := v.y, cLen := v.length, cBase := base, rd := 0, wr := base, cSeg := none, races := []
      cPhase := .raw } := by
  rw [State.taken_eq s hne hv hb]
  simp [hk, Nat.not_lt.mpr hfit]

/-- Without a race a run of payload reads below `CAPACITY` gives the stored bytes (42_decoder R170). -/
theorem State.payloadBytes_of_no_race {a : Nat} (hra : s.races = []) (hc : a + p.length ≤ s.cfg.capacity.bytes)
    (hread : ∀ k, k < p.length → Memory.read (s.slot s.tail).payload (a + k) = p[k]?) :
    s.payloadBytes a p.length = p := by
  apply List.ext_getElem?
  intro k
  rw [State.getElem?_payloadBytes]
  split_ifs with hk
  · rw [s.payloadByte_of_no_race (by omega) (by simp [hra]), storedByte, hread k hk, List.getElem?_eq_getElem hk,
      Option.getD_some]
  · rw [List.getElem?_eq_none (by omega)]

/-- The copy of a whole RAW message inside the surface, of whose bytes none was moved yet (42_decoder R168). -/
theorem State.rawCopied_whole (hbu : s.burst = none) (hrd : s.rd = 0) (hl : s.cLen.toNat = p.length)
    (hp : s.payloadBytes 0 p.length = p) (hfit : s.cBase + p.length ≤ s.cSize.toNat) :
    s.rawCopied = { s with
      dst := Memory.surfaceWrites s.cSize.toNat s.dst s.cBase p
      trace := s.trace ++ dstTransactions s.cBase p
      draws := s.draws + p.length
      rd := p.length
      cPhase := .release } := by
  have hn : s.granted (s.cLen.toNat - s.rd) = p.length := by rw [State.granted_of_none hbu, hl, hrd, Nat.sub_zero]
  rw [State.rawCopied_eq s hn]
  simp [hrd, hl, hp, outOfSurface_eq_nil hfit]

/-- The copy of a whole RAW message and its release, two steps (42_decoder R168, 41_ring R149). -/
theorem run_rawBlt_release (hi : s.inputs = []) (hr : s.running = true) (hp : s.cPhase = .raw) (hrd : s.rd = 0)
    (hl : s.cLen.toNat = p.length) (hbytes : s.payloadBytes 0 p.length = p)
    (hfit : s.cBase + p.length ≤ s.cSize.toNat) :
    Host.Core.run core 2 s = .next { s with
      burst := none
      tail := nextIdx s.tail
      dst := Memory.surfaceWrites s.cSize.toNat s.dst s.cBase p
      trace := s.trace ++ dstTransactions s.cBase p
      draws := s.draws + p.length
      rd := p.length
      cPhase := .loop
      races := [] } := by
  have hcopied := State.rawCopied_whole (s := s.withBurst none) rfl hrd hl hbytes hfit
  have hrelease := step_release (s := (s.withBurst none).rawCopied) (by rw [hcopied]; exact hi)
    (by rw [hcopied]; exact hr) (by rw [hcopied])
  rw [run_succ (step_rawBlt hi hr hp), run_succ hrelease, run_zero, hcopied]
  rfl

/-- A committed RAW message that fits is taken, copied and released in three steps: its bytes are on the surface, and
but for the consumer's registers nothing else has changed. -/
theorem run_rawMessage (hi : s.inputs = []) (hr : s.running = true) (hp : s.cPhase = .loop) (hne : s.tail ≠ s.head)
    (hv : s.slot s.tail = v) (hk : v.kind = .rawBlt) (hb : dstOffset v.x v.y s.cStride = base)
    (hl : v.length.toNat = p.length) (hc : p.length ≤ s.cfg.capacity.bytes)
    (hread : ∀ a, a < p.length → Memory.read v.payload a = p[a]?) (hfit : base + p.length ≤ s.cSize.toNat) :
    ∃ t : State, Host.Core.run core 3 s = .next t ∧
      t = { s with
        tail := nextIdx s.tail
        dst := Memory.surfaceWrites s.cSize.toNat s.dst base p
        trace := s.trace ++ dstTransactions base p
        cKind := t.cKind, cX := t.cX, cY := t.cY, cLen := t.cLen, cBase := t.cBase, rd := t.rd, wr := t.wr
        cSeg := t.cSeg, races := t.races, burst := t.burst, draws := t.draws } := by
  have htake := step_take hi hr hp
  rw [State.taken_raw (s := s.withBurst none) hne hv hb hk (by rw [hl]; exact hfit)] at htake
  rw [run_succ htake]
  refine ⟨_, run_rawBlt_release hi hr rfl rfl hl (State.payloadBytes_of_no_race rfl (by rwa [Nat.zero_add]) ?_) hfit, ?_⟩
  · intro k hlt
    subst hv
    rw [Nat.zero_add]
    exact hread k hlt
  · rw [← hp]
    rfl

/-- The one chunk of a short RAW message commits it in `slot[head]` (40_reassembler R112). -/
theorem step_shortRaw {x y w h : Half} (hl : hdrLen + p.length < maxChunk)
    (hi : s.inputs = [.chunk (encodeStart s.cfg.hdrEndian kindRawBlt x y w h p)]) :
    ∃ u, step s = .next u ∧ u.head = nextIdx s.head ∧ u.pending = true ∧
      u.slot s.head =
        { kind := .rawBlt, x := x, y := y, width := w, height := h, length := BitVec.ofNat 32 p.length
          payload := Memory.writeBytes (s.slot s.head).payload 0 p } ∧
      u = { s with
        inputs := [], head := u.head, slot0 := u.slot0, slot1 := u.slot1, drop := u.drop, pending := u.pending
        races := u.races } := by
  refine ⟨_, step_encodeStart .rawBlt x y w h p hl.le hi, ?_, ?_, (s.withInputs []).acceptStart_slot_head .., ?_⟩
  · rw [State.acceptStart_head, if_pos hl]; rfl
  · rw [State.acceptStart_eq]; exact if_pos hl
  · rw [State.acceptStart_eq]; rfl

/-- Settles O34: the one chunk commits the message (`step_shortRaw`), and the invocation it wakes renders it
(`run_rawMessage`) and finds the Ring empty. -/
theorem shortRawMessageReachesTheSurface : Obligations.ShortRawMessageReachesTheSurface := by
  intro s x y w h p base _ _ hr htl ha hs hb hfit hi
  obtain ⟨u, hchunk, hhead, hpend, hslot, hu⟩ := step_shortRaw hs hi
  have hui : u.inputs = [] := by rw [hu]
  have hur : u.running = false := by rw [hu, hr]
  have hua : u.dstAttached = true := by rw [hu, ha]
  have hut : u.tail = s.head := by rw [hu, htl]
  have hcap := startPayload_le_capacity s.cfg.capacity hs.le
  obtain ⟨t, hraw, ht⟩ := run_rawMessage (s := { (u.withBurst none).invoked with cPhase := .loop }) (p := p) (base := base)
    hui rfl rfl (by simp [hhead, hut, (nextIdx_ne _).symm]) ((congrArg u.slot hut).trans hslot) rfl
    (by rw [hb, hu]; rfl) (toNat_length_of_le_capacity s.cfg.capacity hcap) (by rw [hu]; exact hcap)
    (fun a ha => by rw [Memory.read_writeBytes, if_pos (by omega), Nat.sub_zero]) (by rw [hu]; exact hfit)
  have hti : t.inputs = [] := by rw [ht]; exact hui
  have hth : t.head = nextIdx s.head := by rw [ht]; exact hhead
  have htt : t.tail = nextIdx s.head := by rw [ht]; exact congrArg nextIdx hut
  have hdst : (t.withBurst none).returned.dst = Memory.surfaceWrites s.dstSize.toNat s.dst base p := by
    rw [State.returned_dst, State.withBurst_dst, ht, hu]; rfl
  have hlast := step_take_empty hti (by rw [ht]; rfl) (by rw [ht]) (htt.trans hth.symm)
  refine ⟨(t.withBurst none).returned, ?_, ⟨hti, by rw [ht]; rfl, rfl⟩, congrArg Fin.val hth, htt.trans hth.symm,
    fun a ha => ?_, fun a ha => ?_, ?_, ?_⟩
  · calc Host.Core.run core 7 s
        = Host.Core.run core (2 + 4) u := run_succ hchunk 6
      _ = Host.Core.run core (3 + 1) _ := run_add 2 4 (run_invoke_check hui hur hpend hua)
      _ = Host.Core.run core 1 t := run_add 3 1 hraw
      _ = .next (t.withBurst none).returned := run_succ hlast 0
  · have hin : base ≤ base + a ∧ base + a < base + p.length := by omega
    rw [hdst, Memory.read_surfaceWrites_inside _ _ hfit, if_pos hin, Nat.add_sub_cancel_left]
  · rw [hdst, Memory.read_surfaceWrites_inside _ _ hfit, if_neg (by omega)]
  · rw [State.returned_trace, State.withBurst_trace, ht, hu]; rfl
  · rw [State.returned_faults, State.withBurst_faults, ht, hu]; rfl

end Sys2Proof.Machine
end

section
/-! The family 41_ring: when an invocation starts, what a release hands back, and the two ways a wake-up is spent with
nothing rendered. -/

namespace Sys2Proof.Machine

variable {s t : State} {p : List Byte}

/-! ## The start of an invocation and the release of a Slot -/

/-- `INVOKE` is no micro-step, so within an invocation it is not the enabled operation (41_ring R146). -/
theorem enabledStep_eq_invoke_iff : s.enabledStep = some .invoke ↔ s.pending = true ∧ s.running = false := by
  constructor
  · intro he
    rcases invoke_or_microStep_of_enabled he with ⟨_, hr, hp⟩ | ⟨hm, _⟩
    · exact ⟨hp, hr⟩
    · cases hm
  · rintro ⟨hp, hr⟩
    simp [State.enabledStep, hp, hr]

theorem exec_invoke_iff : exec .invoke s = .next t ↔ (s.pending = true ∧ s.running = false) ∧ t = s.invoked := by
  rw [← enabledStep_eq_invoke_iff]
  exact State.whenEnabled_eq_next

/-- Settles O17, by the one condition and the one next state of `exec_invoke_iff`. -/
theorem invokeStartsAnInvocation : Obligations.InvokeStartsAnInvocation := by
  intro s
  refine ⟨⟨?_, fun hen => ?_⟩, fun hp hr => exec_invoke_iff.mpr ⟨⟨hp, hr⟩, rfl⟩⟩
  · rintro ⟨t, ht⟩
    exact (exec_invoke_iff.mp ht).1
  · exact ⟨s.invoked, exec_invoke_iff.mpr ⟨hen, rfl⟩⟩

/-- Settles O18. -/
theorem releaseHandsTheSlotBack : Obligations.ReleaseHandsTheSlotBack := by
  intro s hr hp
  have he : s.enabledStep = some .release := by simp [State.enabledStep, hr, hp]
  exact ⟨s.released, State.whenEnabled_of_enabled he, nextIdx_val s.tail, rfl⟩

/-! ## Occupancy -/

/-- Both indices are below `N = 2`, so `(head - tail) mod N` is 0 only for equal ones (41_ring R141). -/
theorem State.occupancy_eq_zero_iff (s : State) : s.occupancy = 0 ↔ s.tail = s.head := by
  have hh : s.head.val < 2 := s.head.isLt
  have ht : s.tail.val < 2 := s.tail.isLt
  simp only [State.occupancy, numSlots, Fin.ext_iff]
  omega

theorem State.occupancy_le_one (s : State) : s.occupancy ≤ 1 :=
  Nat.le_of_lt_succ (Nat.mod_lt _ Nat.two_pos)

/-- Settles O19. -/
theorem occupancyOfTheRing : Obligations.OccupancyOfTheRing :=
  fun s => ⟨s.occupancy_eq_zero_iff, s.occupancy_le_one⟩

/-! ## A wake-up with no surface -/

/-- With no surface attached the invocation ends at the surface check, with one event (42_decoder R161). -/
theorem run_invoke_check_noSurface (hi : s.inputs = []) (hr : s.running = false) (hp : s.pending = true)
    (ha : s.dstAttached = false) :
    Host.Core.run core 2 s = .next { (s.withBurst none).invoked with
      trace := s.trace ++ [.errOut .noDst 0#64]
      running := false
      cPhase := .idle } := by
  have hcheck := step_check (s := (s.withBurst none).invoked) hi rfl rfl
  rw [run_succ (step_invoke hi hr hp), run_succ hcheck, run_zero, State.checked_eq]
  simp [ha]

/-- Settles O21, by the two steps of `run_invoke_check_noSurface`. -/
theorem noSurfaceStrandsTheSlot : Obligations.NoSurfaceStrandsTheSlot := by
  intro s hi hp hr ha
  exact ⟨_, run_invoke_check_noSurface hi hr hp ha, ⟨hi, rfl, rfl⟩, rfl, rfl, rfl, rfl, rfl, rfl⟩

/-! ## Two commits with no release between them -/

/-- A short RAW chunk commits its message, whatever inputs follow it (40_reassembler R112). -/
theorem step_shortRaw_cons {x y w h : Half} {rest : List Input} (hl : hdrLen + p.length < maxChunk)
    (hi : s.inputs = .chunk (encodeStart s.cfg.hdrEndian kindRawBlt x y w h p) :: rest) :
    ∃ u, step s = .next u ∧ u.head = nextIdx s.head ∧ u.pending = true ∧ (u.slot s.head).length.toNat = p.length ∧
      (∀ j, j ≠ s.head → u.slot j = s.slot j) ∧
      u = { s with
        inputs := rest, head := u.head, slot0 := u.slot0, slot1 := u.slot1, drop := u.drop, pending := u.pending
        races := u.races } := by
  refine ⟨_, step_encodeStart .rawBlt x y w h p hl.le hi, ?_, ?_, ?_,
    fun j hj => (s.withInputs rest).acceptStart_slot_ne _ _ _ _ _ _ hj, ?_⟩
  · rw [State.acceptStart_head, if_pos hl]; rfl
  · rw [State.acceptStart_eq]; exact if_pos hl
  · rw [← State.withInputs_head s rest, State.acceptStart_slot_head]
    exact toNat_length_of_le_capacity s.cfg.capacity (startPayload_le_capacity _ hl.le)
  · rw [State.acceptStart_eq]; rfl

/-- Two short RAW messages advance `head` once around the Ring: the first one's Slot keeps its length, and `head` is
back where it was (41_ring R144). -/
theorem run_two_shortRaw {x y w h x' y' w' h' : Half} {p' : List Byte} (hl : hdrLen + p.length < maxChunk)
    (hl' : hdrLen + p'.length < maxChunk)
    (hi : s.inputs =
      [.chunk (encodeStart s.cfg.hdrEndian kindRawBlt x y w h p),
        .chunk (encodeStart s.cfg.hdrEndian kindRawBlt x' y' w' h' p')]) :
    ∃ t : State, Host.Core.run core 2 s = .next t ∧ t.pending = true ∧ (t.slot s.head).length.toNat = p.length ∧
      t = { s with
        inputs := [], slot0 := t.slot0, slot1 := t.slot1, drop := t.drop, pending := t.pending, races := t.races } := by
  obtain ⟨u, hfirst, huh, _, hulen, _, hu⟩ := step_shortRaw_cons hl hi
  have hui : u.inputs = [.chunk (encodeStart u.cfg.hdrEndian kindRawBlt x' y' w' h' p')] := by rw [hu]
  obtain ⟨t, hsecond, hth, htp, _, hother, ht⟩ := step_shortRaw_cons hl' hui
  have hhead : t.head = s.head := by rw [hth, huh, nextIdx_nextIdx]
  have hne : s.head ≠ u.head := by rw [huh]; exact (nextIdx_ne _).symm
  refine ⟨t, ?_, htp, (congrArg (fun v => v.length.toNat) (hother _ hne)).trans hulen, ?_⟩
  · rw [run_succ hfirst, run_succ hsecond, run_zero]
  · rw [← hhead]
    rw [hu] at ht
    exact ht

/-- A wake-up that finds the Ring empty is spent on an invocation of three steps that changes nothing but the consumer's
registers and latches (42_decoder R162). -/
theorem run_invocation_of_empty (hi : s.inputs = []) (hr : s.running = false) (hp : s.pending = true)
    (ha : s.dstAttached = true) (he : s.tail = s.head) :
    Host.Core.run core 3 s = .next { (s.withBurst none).invoked with running := false, cPhase := .idle } := by
  have htake := step_take_empty (s := { (s.withBurst none).invoked with cPhase := .loop }) hi rfl rfl he
  rw [run_add 2 1 (run_invoke_check hi hr hp ha), run_succ htake, run_zero]
  rfl

/-- Settles O20: the two commits bring `head` back to `tail` (`run_two_shortRaw`), and the invocation they wake finds the
Ring empty (`run_invocation_of_empty`). -/
theorem overrunRendersNothing : Obligations.OverrunRendersNothing := by
  intro s x y w h x' y' w' h' p p' _ hr _ he ha hl hl' hi
  obtain ⟨t, hrun, htp, hlen, ht⟩ := run_two_shortRaw hl hl' hi
  have hti : t.inputs = [] := by rw [ht]
  have hth : t.head = s.head := by rw [ht]
  have htt : t.tail = s.tail := by rw [ht]
  have htd : t.dst = s.dst := by rw [ht]
  have htr : t.trace = s.trace := by rw [ht]
  have hempty : t.tail = t.head := by rw [htt, hth, he]
  have hlast := run_invocation_of_empty hti (by rw [ht, hr]) htp (by rw [ht, ha]) hempty
  exact ⟨⟨t, hrun, hempty.symm, htp, hlen, htr⟩,
    _, (run_add 2 3 hrun).trans hlast, ⟨hti, rfl, rfl⟩, hth, htt, htd, htr⟩

end Sys2Proof.Machine
end

section
/-! The family 42_decoder, the micro-steps one by one: which is enabled, what it does, and the bounds of the cursors. -/

namespace Sys2Proof.Machine

variable {s t u : State} {i : Instr} {g : Segment} {c : BitVec 6} {v : Slot} {base : Nat}

/-! ## Which micro-step is enabled -/

/-- Within an invocation `c_phase` enables a micro-step (42_decoder R160). -/
theorem exists_enabled_microStep (hr : s.running = true) (hp : s.cPhase ≠ .idle) :
    ∃ o, s.enabledStep = some o ∧ isMicroStep o = true := by
  have he : ∃ o, s.enabledStep = some o := by
    cases hc : s.cPhase with
    | idle => exact absurd hc hp
    | rle => cases hs : s.cSeg <;> simp [State.enabledStep, hr, hc, hs]
    | check | loop | raw | release => simp [State.enabledStep, hr, hc]
  obtain ⟨o, he⟩ := he
  rcases invoke_or_microStep_of_enabled he with ⟨_, hr', _⟩ | ⟨hm, _⟩
  · exact absurd (hr.symm.trans hr') Bool.noConfusion
  · exact ⟨o, he, hm⟩

/-- A micro-step that is not the enabled operation is refused (assumption log 17). -/
theorem exec_microStep_of_not_enabled (hm : isMicroStep i = true) (he : s.enabledStep ≠ some i) :
    exec i s = .refused .notEnabled := by
  have hw : ∀ t, s.whenEnabled i t = .refused .notEnabled := fun _ => if_neg he
  cases i <;> cases hm
  case segLiteral | segRepeat =>
    simp only [exec, execSegLiteral, execSegRepeat]
    cases s.cSeg with
    | none => rfl
    | some g => exact hw _
  all_goals exact hw _

/-- `running`, `c_phase` and `pending` select the enabled operation, the converse of `State.enabledStep_cases`. -/
theorem State.enabledStep_of_selected
    (h : s.running = false ∧ s.pending = true ∧ i = .invoke ∨
      s.running = true ∧
        (s.cPhase = .check ∧ i = .check ∨ s.cPhase = .loop ∧ i = .take ∨ s.cPhase = .raw ∧ i = .rawBlt ∨
          s.cPhase = .rle ∧ s.cSeg = none ∧ i = .rleBlt ∨
          (s.cPhase = .rle ∧ ∃ g, s.cSeg = some g ∧ i = decodeSegment g.header) ∨
          s.cPhase = .release ∧ i = .release)) :
    s.enabledStep = some i := by
  rcases h with ⟨hr, hp, rfl⟩ | ⟨hr, ⟨hp, rfl⟩ | ⟨hp, rfl⟩ | ⟨hp, rfl⟩ | ⟨hp, hs, rfl⟩ | ⟨hp, g, hs, rfl⟩ | ⟨hp, rfl⟩⟩ <;>
    simp [State.enabledStep, *]

/-- Settles O52: `enabledStep` is the selected operation, and a step without an input, or at a turn, runs it. -/
theorem stepRunsTheSelectedOperation : Obligations.StepRunsTheSelectedOperation := by
  intro s b rest i hi hsel
  have hd (g : Segment) : decode s.cfg.hdrEndian .segment [g.header] = .ok i ↔ i = decodeSegment g.header := by
    rw [decode, Except.ok.injEq, eq_comm]
  simp only [hd] at hsel
  have he := State.enabledStep_of_selected hsel
  rcases hi with ⟨hi, rfl, rfl⟩ | hi
  · rw [step_nil hi, he, ← hi, State.withInputs_self]
  · rw [step_turn hi, he]

/-! ## The phase a micro-step leads to -/

theorem State.checked_cPhase (s : State) : s.checked.cPhase = .loop ∨ s.checked.cPhase = .idle := by
  rw [State.checked_eq]
  cases s.cAtt <;> simp

theorem State.taken_cPhase (s : State) :
    s.taken.cPhase = .raw ∨ s.taken.cPhase = .rle ∨ s.taken.cPhase = .release ∨ s.taken.cPhase = .idle := by
  by_cases he : s.tail = s.head
  · simp [State.taken, he]
  · rw [State.taken_eq s he rfl rfl]
    dsimp only
    split_ifs <;> simp

theorem State.rawCopied_cPhase (s : State) :
    s.rawCopied.cPhase = .release ∨ (s.burst ≠ none ∧ s.rawCopied.cPhase = .raw) := by
  rw [State.rawCopied_eq s rfl]
  dsimp only
  split_ifs with hall
  · exact .inl rfl
  · exact .inr ⟨fun hb => hall (State.granted_of_none hb _), rfl⟩

theorem State.segmentBegun_cPhase (hp : s.cPhase = .rle) :
    s.segmentBegun.cPhase = .rle ∨ s.segmentBegun.cPhase = .release := by
  rcases State.segmentBegun_cases s with ⟨_, h⟩ | ⟨_, _, h⟩ | ⟨_, _, _, _, _, _, h⟩ <;> simp [h, hp]

theorem State.literalMoved_cPhase (s : State) (g : Segment) (c : BitVec 6) : (s.literalMoved g c).cPhase = s.cPhase := by
  rw [State.literalMoved_eq s g c rfl]

theorem State.repeatMoved_cPhase (s : State) (g : Segment) (c : BitVec 6) : (s.repeatMoved g c).cPhase = s.cPhase := by
  rw [State.repeatMoved_eq s g c rfl rfl]

/-- Settles O22: `c_phase` enables one micro-step, any other is refused, and each effect sets `c_phase` to what the
table of R160 gives. -/
theorem oneMicroStepPerPhase : Obligations.OneMicroStepPerPhase := by
  refine fun s => ⟨fun hr hp => ?_, fun hr i hm => ?_, fun i t hm h => ?_⟩
  · obtain ⟨o, he, hm⟩ := exists_enabled_microStep hr hp
    refine ⟨o, hm, exec_of_enabled he, fun j hj hx => ?_⟩
    obtain ⟨t, ht⟩ := hx
    exact Option.some.inj ((enabledStep_of_exec hj ht).symm.trans he)
  · refine exec_microStep_of_not_enabled hm fun he => ?_
    rcases invoke_or_microStep_of_enabled he with ⟨rfl, _⟩ | ⟨_, hr'⟩
    · cases hm
    · exact Bool.noConfusion (hr.symm.trans hr')
  · obtain ⟨_, ⟨hp, _, rfl⟩ | ⟨hp, _, rfl⟩ | ⟨hp, _, rfl⟩ | ⟨hp, _, _, rfl⟩ | ⟨g, _, hp, _, _, rfl⟩ |
      ⟨g, _, hp, _, _, rfl⟩ | ⟨hp, _, rfl⟩⟩ := microStep_cases hm h
    · simpa [hp] using s.checked_cPhase
    · simpa [hp] using s.taken_cPhase
    · simpa [hp] using s.rawCopied_cPhase
    · simpa [hp] using State.segmentBegun_cPhase hp
    · simp [hp, State.literalMoved_cPhase]
    · simp [hp, State.repeatMoved_cPhase]
    · simp [hp]

/-! ## The surface check and the take -/

theorem exec_check (hr : s.running = true) (hp : s.cPhase = .check) : exec .check s = .next s.checked :=
  State.whenEnabled_of_enabled (by simp [State.enabledStep, hr, hp])

theorem exec_take (hr : s.running = true) (hp : s.cPhase = .loop) : exec .take s = .next s.taken :=
  State.whenEnabled_of_enabled (by simp [State.enabledStep, hr, hp])

theorem exec_rleBlt (hr : s.running = true) (hp : s.cPhase = .rle) (hs : s.cSeg = none) :
    exec .rleBlt s = .next s.segmentBegun :=
  State.whenEnabled_of_enabled (by simp [State.enabledStep, hr, hp, hs])

/-- Settles O23. -/
theorem surfaceCheck : Obligations.SurfaceCheck := by
  intro s hr hp
  rw [exec_check hr hp, State.checked_eq]
  constructor <;> intro ha <;> simp [ha]

/-- Settles O24. -/
theorem emptyRingEndsTheInvocation : Obligations.EmptyRingEndsTheInvocation := by
  intro s hr hp he
  rw [exec_take hr hp, State.taken, if_pos he, State.returned]

/-- Settles O25, by `State.taken_eq`: `dstOffset` is the offset of R165. -/
theorem takeLatchesTheSlot : Obligations.TakeLatchesTheSlot := by
  rintro s hr hp hne base last hb rfl
  rw [exec_take hr hp, State.taken_eq s hne rfl hb.symm]

/-- The take of a RAW message that exceeds the surface reports its end address and leads to the release
(42_decoder R167). -/
theorem State.taken_raw_exceeds (hne : s.tail ≠ s.head) (hv : s.slot s.tail = v) (hb : dstOffset v.x v.y s.cStride = base)
    (hk : v.kind = .rawBlt) (hx : s.cSize.toNat < base + v.length.toNat) :
    s.taken = { s with
      cKind := v.kind, cX := v.x, cY := v.y, cLen := v.length, cBase := base, rd := 0, wr := base, cSeg := none, races := []
      cPhase := .release
      trace := s.trace ++ [.errOut .dstBounds (BitVec.ofNat 64 (base + v.length.toNat))] } := by
  rw [State.taken_eq s hne hv hb]
  simp [hk, hx]

/-- Settles O33, by the two steps of the take (`State.taken_raw_exceeds`) and the release. -/
theorem rejectedRawMessageWritesNothing : Obligations.RejectedRawMessageWritesNothing := by
  rintro s last hi hr hp hne hk rfl hx
  have htake := step_take hi hr hp
  rw [State.taken_raw_exceeds (s := s.withBurst none) hne rfl rfl hk hx] at htake
  refine ⟨_, (run_succ htake 1).trans (run_succ (step_release ?_ ?_ ?_) 0), nextIdx_val s.tail, rfl, rfl, rfl, rfl⟩
  exacts [hi, hr, rfl]

/-! ## The RLE header step -/

/-- The decoded size of a segment is `2 * (COUNT_M1 + 1)` (30_encoding R94 to R96). -/
theorem decodedBytes_segCountM1 (h : Byte) : decodedBytes (segCountM1 h) = 2 * (h.toNat % 64 + 1) := by
  rw [decodedBytes, pixelCount, toNat_segCountM1]

theorem State.segmentBegun_end (h : s.cLen.toNat ≤ s.rd) : s.segmentBegun = { s with cPhase := .release } := if_pos h

/-- A header is read below the length, and the guard reports a segment that exceeds the surface (42_decoder R175). -/
theorem State.segmentBegun_guarded (hl : s.rd < s.cLen.toNat) {last : Nat}
    (he : s.wr + decodedBytes (segCountM1 (s.payloadByte s.rd s.draws)) = last)
    (hg : s.cfg.rleGuard = true ∧ s.cSize.toNat < last) :
    s.segmentBegun = { s with
      trace := s.trace ++ [.errOut .dstBounds (BitVec.ofNat 64 last)]
      cPhase := .release
      draws := s.draws + 1 } := by
  subst he
  rw [State.segmentBegun, if_neg (by omega)]
  exact if_pos (by simpa [State.exceedsSurface] using hg)

/-- Without a guard that reports it, the segment of the header is begun (42_decoder R169). -/
theorem State.segmentBegun_header (hl : s.rd < s.cLen.toNat) {h : Byte} (hh : s.payloadByte s.rd s.draws = h)
    (hg : ¬(s.cfg.rleGuard = true ∧ s.cSize.toNat < s.wr + decodedBytes (segCountM1 h))) :
    s.segmentBegun = { s with cSeg := some { header := h, moved := 0, pixel := none }, draws := s.draws + 1 } := by
  subst hh
  rw [State.segmentBegun, if_neg (by omega)]
  exact if_neg (by simpa [State.exceedsSurface] using hg)

/-- Settles O27. -/
theorem rleStepTestsReadsAndGuards : Obligations.RleStepTestsReadsAndGuards := by
  intro s hr hp hs
  rw [exec_rleBlt hr hp hs]
  refine ⟨fun hend => by rw [State.segmentBegun_end hend], ?_⟩
  rintro hl h last rfl rfl
  rw [← decodedBytes_segCountM1]
  exact ⟨fun hg => by rw [State.segmentBegun_guarded hl rfl hg], fun hg => by rw [State.segmentBegun_header hl rfl hg]⟩

/-! ## Payload reads and the bounds of the cursors -/

/-- Settles O35. -/
theorem payloadReadGivesTheStoredByte : Obligations.PayloadReadGivesTheStoredByte := by
  intro s a d b ha hrace hb
  rw [s.payloadByte_of_no_race ha hrace, storedByte, hb, Option.getD_some]

/-- The offset of R165 for fields of 16, 16 and 32 bits (42_decoder R166). -/
theorem dstOffset_lt (x y : Half) (stride : Word) : dstOffset x y stride < 2 ^ 46 := by
  have hx := x.isLt
  have hrow : y.toNat * stride.toNat ≤ 2 ^ 16 * 2 ^ 32 := Nat.mul_le_mul y.isLt.le stride.isLt.le
  simp only [dstOffset, bitsPerPixel]
  omega

/-- Settles O43: the widths of the fields bound `c_base` and `c_len`, and the invariant bounds `rd` and `wr` by them. -/
theorem cursorsStayInTheirBounds : Obligations.CursorsStayInTheirBounds := by
  rintro s ⟨_, _, hold, hraw, hrle, _⟩ hh
  have hlen := s.cLen.isLt
  have hbase : s.cBase < 2 ^ 46 := (hold.1 hh).2 ▸ dstOffset_lt ..
  have hrd : s.cPhase = .raw ∨ s.cPhase = .rle → s.rd ≤ s.cLen.toNat + 128 := by
    rintro (hp | hp)
    · exact (hraw hp).2.2.trans (Nat.le_add_right _ _)
    · exact (hrle hp).2.2.2
  refine ⟨hbase, by omega, fun hp => ⟨hrd hp, by have := hrd hp; omega⟩, fun hp => ?_⟩
  obtain ⟨_, _, hwr, hle⟩ := hrle hp
  omega

end Sys2Proof.Machine
end

section
/-! The family 42_decoder, the copy and the segments: which bytes an operation moves, and how partial moves add up. -/

namespace Sys2Proof.Machine

variable {s t u : State} {g : Segment} {c : BitVec 6} {m : Memory} {a n size : Nat}

/-! ## Runs of writes given byte by byte -/

/-- What the surface holds at a byte of a run of writes. -/
theorem Memory.read_surfaceWrites_map_range (h : Memory.wf m = true) (f : Nat → Byte) {k : Nat} (hk : k < n) :
    Memory.read (Memory.surfaceWrites size m a ((List.range n).map f)) (a + k) =
      if a + k < size then some (f k) else none := by
  rw [Memory.read_surfaceWrites _ h, if_pos (by simp [hk])]
  simp [hk]

/-- The same for a run inside the surface, whatever the memory was. -/
theorem Memory.read_surfaceWrites_map_range_inside (m : Memory) (f : Nat → Byte) (h : a + n ≤ size) {k : Nat} (hk : k < n) :
    Memory.read (Memory.surfaceWrites size m a ((List.range n).map f)) (a + k) = some (f k) := by
  rw [Memory.read_surfaceWrites_inside _ _ (by simpa using h), if_pos (by simp [hk])]
  simp [hk]

/-- A run of writes leaves the addresses before and after it alone. -/
theorem Memory.read_surfaceWrites_map_range_outside (m : Memory) (f : Nat → Byte) {b : Nat} (hb : b < a ∨ a + n ≤ b) :
    Memory.read (Memory.surfaceWrites size m a ((List.range n).map f)) b = Memory.read m b :=
  Memory.read_surfaceWrites_of_not_in _ b (by simp; omega)

/-! ## What an operation moves -/

/-- Settles O26: `State.rawCopied_eq` is one run of writes, inside the surface by the bounds check. -/
theorem rawCopyMovesThePayload : Obligations.RawCopyMovesThePayload := by
  intro s n hr hp hrd hfit hn
  have hn : s.granted (s.cLen.toNat - s.rd) = n := hn.symm
  have hle : n ≤ s.cLen.toNat - s.rd := hn ▸ State.granted_le s _
  rw [exec_rawBlt_iff.mpr ⟨⟨hr, hp⟩, rfl⟩, State.rawCopied_eq s hn]
  refine ⟨_, rfl,
    fun k hk => Memory.read_surfaceWrites_map_range_inside _ _ (by omega) hk,
    fun a ha => Memory.read_surfaceWrites_map_range_outside _ _ ha,
    congrArg _ (dstTransactions_map_range ..), rfl, fun h => if_pos ?_, fun h => if_neg ?_, ?_⟩
  · simp only at h; omega
  · simp only at h; omega
  · rw [outOfSurface_eq_nil (by simp; omega), List.append_nil]

/-- Settles O28: `State.literalMoved_eq` is one run of writes, and moves the cursors on when the segment is complete. -/
theorem literalSegmentCopies : Obligations.LiteralSegmentCopies := by
  rintro s g b c total n hr hp hg hd hwf rfl _ hn
  have hn : s.granted (decodedBytes c - g.moved) = n := hn.symm
  rw [exec_segLiteral_iff.mpr ⟨g, hr, hp, hg, hd, rfl⟩, State.literalMoved_eq s g c hn]
  refine ⟨_, rfl,
    fun k hk => Memory.read_surfaceWrites_map_range hwf _ hk,
    fun a ha => Memory.read_surfaceWrites_map_range_outside _ _ ha,
    congrArg _ (dstTransactions_map_range ..), fun h => ⟨?_, if_pos h, if_pos h⟩,
    fun h => ⟨if_neg h, if_neg h, if_neg h⟩, rfl⟩
  exact (if_pos h).trans (Nat.add_assoc ..).symm

/-- Settles O29: `State.repeatMoved_eq` is one run of writes of the pixel, and moves the cursors on when the segment is
complete. -/
theorem repeatSegmentExpands : Obligations.RepeatSegmentExpands := by
  rintro s g b c total n p0 p1 hr hp hg hd hwf rfl _ hn hpx
  have hn : s.granted (decodedBytes c - g.moved) = n := hn.symm
  have hpx : s.pixelRead g = (p0, p1) := hpx.symm
  rw [exec_segRepeat_iff.mpr ⟨g, hr, hp, hg, hd, rfl⟩, State.repeatMoved_eq s g c hn hpx]
  exact ⟨_, rfl,
    fun k hk => Memory.read_surfaceWrites_map_range hwf _ hk,
    fun a ha => Memory.read_surfaceWrites_map_range_outside _ _ ha,
    congrArg _ (dstTransactions_map_range ..), fun h => ⟨if_pos h, if_pos h, if_pos h⟩,
    fun h => ⟨if_neg h, if_neg h, if_neg h⟩, rfl⟩

end Sys2Proof.Machine
end

section
/-! The family 42_decoder, partial moves: a copy or a segment that is resumed gives what it gives in one go (R177). -/

namespace Sys2Proof.Machine

variable {s u : State} {k : Option Nat} {b : Bool} {g : Segment} {c : BitVec 6} {a n m : Nat} {bs : List Byte}

/-- A payload read depends on the parameters, the Slots, `tail` and the races only (42_decoder R170). -/
theorem State.payloadByte_congr (hc : u.cfg = s.cfg) (ht : u.tail = s.tail) (h0 : u.slot0 = s.slot0)
    (h1 : u.slot1 = s.slot1) (hr : u.races = s.races) (a d : Nat) : u.payloadByte a d = s.payloadByte a d := by
  simp only [State.payloadByte, State.raceValues, State.slot, hc, ht, h0, h1, hr]

/-! ## The operations as a run of given bytes

The bytes, their number and the next phase are variables, so that the state of a resumed move stays a small term. -/

theorem State.rawCopied_eq_of_bytes {ph : Phase} (hn : s.granted (s.cLen.toNat - s.rd) = n)
    (hb : s.payloadBytes s.rd n = bs) (hph : (if n = s.cLen.toNat - s.rd then Phase.release else .raw) = ph) :
    s.rawCopied = { (s.writeDst (s.cBase + s.rd) bs).countReads n with rd := s.rd + n, cPhase := ph } := by
  subst hn hb hph; rfl

theorem State.literalMoved_eq_of_bytes (hn : s.granted (decodedBytes c - g.moved) = n)
    (hb : s.payloadBytes (s.rd + 1 + g.moved) n = bs) :
    s.literalMoved g c = ((s.writeDst (s.wr + g.moved) bs).countReads n).segmentMoved g (g.moved + n) (decodedBytes c)
      (1 + decodedBytes c) := by
  subst hn hb; rfl

theorem State.repeatMoved_eq_of_bytes {p : Byte × Byte} (hn : s.granted (decodedBytes c - g.moved) = n)
    (hp : s.pixelRead g = p) :
    s.repeatMoved g c =
      ((s.writeDst (s.wr + g.moved) (repeatBytes p.1 p.2 g.moved n)).countReads g.pixelReads).segmentMoved
        { g with pixel := some p } (g.moved + n) (decodedBytes c) 3 := by
  subst hn hp; rfl

/-! ## Resuming -/

/-- A run of writes resumed where it stopped is one run. -/
theorem State.writeDst_append (s : State) (a : Nat) (bs cs : List Byte) :
    s.writeDst a (bs ++ cs) = (s.writeDst a bs).writeDst (a + bs.length) cs := by
  simp only [State.writeDst, Memory.surfaceWrites_append, dstTransactions_append, outOfSurface_append, List.append_assoc]

theorem State.countReads_add (s : State) (r r' : Nat) : s.countReads (r + r') = (s.countReads r).countReads r' := by
  rw [State.countReads, ← Nat.add_assoc]
  rfl

theorem State.writes_resumed {cs : List Byte} {r r' : Nat} (hl : bs.length = n) :
    ((((((s.withBurst k).writeDst a bs).countReads r).withBurst none).writeDst (a + n) cs).countReads r') =
      ((s.withBurst none).writeDst a (bs ++ cs)).countReads (r + r') := by
  subst hl
  rw [State.writeDst_append, State.countReads_add]
  rfl

/-- A move granted some of the bytes, and then the rest of them, is granted all of them. -/
theorem State.exists_rest_of_granted (hn : s.granted a = n) : ∃ j, a = n + j :=
  Nat.exists_eq_add_of_le (hn ▸ s.granted_le a)

/-- A RAW copy granted some of its bytes and then the rest gives what it gives in one go. -/
theorem State.rawCopied_resumed (s : State) (k : Option Nat) :
    ((s.withBurst k).rawCopied.withBurst none).rawCopied = (s.withBurst none).rawCopied := by
  obtain ⟨n, hn⟩ : ∃ n, (s.withBurst k).granted (s.cLen.toNat - s.rd) = n := ⟨_, rfl⟩
  obtain ⟨j, hj⟩ := State.exists_rest_of_granted hn
  obtain ⟨bs, hbs⟩ : ∃ bs, s.payloadBytes s.rd n = bs := ⟨_, rfl⟩
  obtain ⟨ph, hph⟩ : ∃ ph, (if n = s.cLen.toNat - s.rd then Phase.release else .raw) = ph := ⟨_, rfl⟩
  have hu := State.rawCopied_eq_of_bytes (s := s.withBurst k) hn hbs hph
  generalize (s.withBurst k).rawCopied = u at hu
  obtain ⟨cs, hcs⟩ : ∃ cs, u.payloadBytes (s.rd + n) j = cs := ⟨_, rfl⟩
  have hall : s.payloadBytes s.rd (n + j) = bs ++ cs := by
    rw [← hbs, ← hcs, State.payloadBytes_add s u s.rd n j fun _ _ => State.payloadByte_congr ?_ ?_ ?_ ?_ ?_ _ _] <;>
      rw [hu] <;> rfl
  have hrd : u.rd = s.rd + n := by rw [hu]; rfl
  have hbase : u.cBase = s.cBase := by rw [hu]; rfl
  have hlast : u.cLen = s.cLen := by rw [hu]; rfl
  have hrest : u.cLen.toNat - u.rd = j := by rw [hlast, hrd]; omega
  rw [State.rawCopied_eq_of_bytes (s := s.withBurst none) hj hall (if_pos hj.symm),
    State.rawCopied_eq_of_bytes (s := u.withBurst none) hrest (hrd ▸ hcs) (if_pos hrest.symm)]
  simp only [State.withBurst_rd, State.withBurst_cBase, hrd, hbase, ← Nat.add_assoc]
  rw [← State.writes_resumed (k := k) (hbs ▸ s.length_payloadBytes s.rd n), hu]
  rfl

theorem State.segmentMoved_of_ne {total size : Nat} (h : m ≠ total) :
    s.segmentMoved g m total size = { s with cSeg := some { g with moved := m } } := if_neg h

/-- A segment that is still in progress is not complete, and keeps its progress. -/
theorem State.segmentMoved_unfinished {r total size : Nat}
    (hu : u = (((s.withBurst k).writeDst a bs).countReads r).segmentMoved g m total size) (hs : u.cSeg ≠ none) :
    m ≠ total ∧ u.running = s.running ∧ u.cPhase = s.cPhase ∧ u.cSeg = some { g with moved := m } := by
  have hm : m ≠ total := fun hm => hs (by rw [hu, State.segmentMoved, if_pos hm])
  rw [hu, State.segmentMoved_of_ne hm]
  exact ⟨hm, rfl, rfl, rfl⟩

/-- A segment that was left in progress moves the cursors as if its two runs of writes were one. -/
theorem State.segmentMoved_resumed {cs : List Byte} {r r' m' total size : Nat} (hl : bs.length = n) (hm : m ≠ total)
    (hu : u = (((s.withBurst k).writeDst a bs).countReads r).segmentMoved g m total size) :
    (((u.withBurst none).writeDst (a + n) cs).countReads r').segmentMoved { g with moved := m } m' total size =
      (((s.withBurst none).writeDst a (bs ++ cs)).countReads (r + r')).segmentMoved g m' total size := by
  subst hu
  rw [State.segmentMoved_of_ne hm, ← State.writes_resumed (k := k) hl]
  unfold State.segmentMoved
  split_ifs <;> rfl

/-- A literal segment granted some of its bytes and then the rest gives what it gives in one go. -/
theorem State.literalMoved_resumed (hn : (s.withBurst k).granted (decodedBytes c - g.moved) = n)
    (hm : g.moved + n ≠ decodedBytes c) :
    (((s.withBurst k).literalMoved g c).withBurst none).literalMoved { g with moved := g.moved + n } c =
      (s.withBurst none).literalMoved g c := by
  obtain ⟨j, hj⟩ := State.exists_rest_of_granted hn
  obtain ⟨bs, hbs⟩ : ∃ bs, s.payloadBytes (s.rd + 1 + g.moved) n = bs := ⟨_, rfl⟩
  have hlen : bs.length = n := by rw [← hbs, State.length_payloadBytes]
  have hu := State.literalMoved_eq_of_bytes (s := s.withBurst k) hn hbs
  generalize (s.withBurst k).literalMoved g c = u at hu
  obtain ⟨cs, hcs⟩ : ∃ cs, u.payloadBytes (s.rd + 1 + g.moved + n) j = cs := ⟨_, rfl⟩
  have hu' := hu.trans (State.segmentMoved_of_ne hm)
  have hall : s.payloadBytes (s.rd + 1 + g.moved) (n + j) = bs ++ cs := by
    rw [← hbs, ← hcs, State.payloadBytes_add s u _ n j fun _ _ => State.payloadByte_congr ?_ ?_ ?_ ?_ ?_ _ _] <;>
      rw [hu'] <;> rfl
  have hrd : u.rd = s.rd := by rw [hu']; rfl
  have hwr : u.wr = s.wr := by rw [hu']; rfl
  rw [State.literalMoved_eq_of_bytes (s := s.withBurst none) hj hall,
    State.literalMoved_eq_of_bytes (s := u.withBurst none) (g := { g with moved := g.moved + n }) (n := j) (bs := cs)
      (show decodedBytes c - (g.moved + n) = j by omega) (by rw [← hcs, ← hrd, Nat.add_assoc _ g.moved]; rfl)]
  simp only [State.withBurst_wr, hwr, ← Nat.add_assoc]
  exact State.segmentMoved_resumed hlen hm hu

/-- So does a repeat segment, which keeps the pixel it has read (42_decoder R172). -/
theorem State.repeatMoved_resumed (hn : (s.withBurst k).granted (decodedBytes c - g.moved) = n)
    (hm : g.moved + n ≠ decodedBytes c) :
    (((s.withBurst k).repeatMoved g c).withBurst none).repeatMoved
        { g with moved := g.moved + n, pixel := some (s.pixelRead g) } c =
      (s.withBurst none).repeatMoved g c := by
  obtain ⟨j, hj⟩ := State.exists_rest_of_granted hn
  obtain ⟨p, hp⟩ : ∃ p, s.pixelRead g = p := ⟨_, rfl⟩
  have hu := State.repeatMoved_eq_of_bytes (s := s.withBurst k) hn hp
  generalize (s.withBurst k).repeatMoved g c = u at hu
  have hwr : u.wr = s.wr := by rw [hu.trans (State.segmentMoved_of_ne hm)]; rfl
  rw [hp, State.repeatMoved_eq_of_bytes (s := s.withBurst none) hj hp, ← repeatBytes_add,
    State.repeatMoved_eq_of_bytes (s := u.withBurst none) (g := { g with moved := g.moved + n, pixel := some p }) (n := j)
      (show decodedBytes c - (g.moved + n) = j by omega) rfl]
  simp only [State.withBurst_wr, hwr, ← Nat.add_assoc]
  exact State.segmentMoved_resumed (length_repeatBytes ..) hm hu

/-- Settles O30: the operation that finishes is enabled where the partial one was, and gives the whole
(`State.rawCopied_resumed`, `State.literalMoved_resumed`, `State.repeatMoved_resumed`). -/
theorem partialMovesAddUpToTheWhole : Obligations.PartialMovesAddUpToTheWhole := by
  refine fun s k u => ⟨fun _ h hp => ?_, fun b c h hs => ?_, fun b c h hs => ?_⟩
  · obtain ⟨⟨hr, hph⟩, rfl⟩ := exec_rawBlt_iff.mp h
    have hur : (s.withBurst (some k)).rawCopied.running = true := by rw [State.rawCopied_eq _ rfl]; exact hr
    rw [(exec_rawBlt_iff (s := s.withBurst none)).mpr ⟨⟨hr, hph⟩, rfl⟩, ← State.rawCopied_resumed s (some k)]
    exact exec_rawBlt_iff.mpr ⟨⟨hur, hp⟩, rfl⟩
  · obtain ⟨g, hr, hp, hg, hd, rfl⟩ := exec_segLiteral_iff.mp h
    obtain ⟨hm, hur, hup, hug⟩ := State.segmentMoved_unfinished (State.literalMoved_eq_of_bytes rfl rfl) hs
    rw [(exec_segLiteral_iff (s := s.withBurst none)).mpr ⟨g, hr, hp, hg, hd, rfl⟩,
      ← State.literalMoved_resumed (k := some k) rfl hm]
    exact exec_segLiteral_iff.mpr ⟨_, hur.trans hr, hup.trans hp, hug, hd, rfl⟩
  · obtain ⟨g, hr, hp, hg, hd, rfl⟩ := exec_segRepeat_iff.mp h
    obtain ⟨hm, hur, hup, hug⟩ := State.segmentMoved_unfinished (State.repeatMoved_eq_of_bytes rfl rfl) hs
    rw [(exec_segRepeat_iff (s := s.withBurst none)).mpr ⟨g, hr, hp, hg, hd, rfl⟩,
      ← State.repeatMoved_resumed (k := some k) rfl hm]
    exact exec_segRepeat_iff.mpr ⟨_, hur.trans hr, hup.trans hp, hug, hd, rfl⟩

end Sys2Proof.Machine
end

section
/-! The family 42_decoder, the RLE decoder as a whole: it ends, and it expands a well-formed payload to its segments. -/

namespace Sys2Proof.Machine

variable {s t : State} {g : Segment} {h p0 p1 : Byte} {c : BitVec 6} {bs cs : List Byte} {n : Nat}

/-! ## A whole segment in one step -/

theorem State.literalMoved_whole (hbu : s.burst = none) (hm : g.moved = 0)
    (hb : s.payloadBytes (s.rd + 1) (decodedBytes c) = bs) :
    s.literalMoved g c = { s.writeDst s.wr bs with
      draws := s.draws + decodedBytes c, rd := s.rd + (1 + decodedBytes c), wr := s.wr + decodedBytes c, cSeg := none } := by
  have hn : s.granted (decodedBytes c - g.moved) = decodedBytes c := by
    rw [State.granted_of_none hbu, hm, Nat.sub_zero]
  rw [State.literalMoved_eq s g c hn]
  simp [hm, hb, State.writeDst]

theorem State.repeatMoved_whole (hbu : s.burst = none) (hm : g.moved = 0) (hpx : g.pixel = none)
    (h0 : s.payloadByte (s.rd + 1) s.draws = p0) (h1 : s.payloadByte (s.rd + 2) (s.draws + 1) = p1) :
    s.repeatMoved g c = { s.writeDst s.wr (repeatBytes p0 p1 0 (decodedBytes c)) with
      draws := s.draws + 2, rd := s.rd + 3, wr := s.wr + decodedBytes c, cSeg := none } := by
  have hn : s.granted (decodedBytes c - g.moved) = decodedBytes c := by
    rw [State.granted_of_none hbu, hm, Nat.sub_zero]
  have hp : s.pixelRead g = (p0, p1) := by rw [State.pixelRead, hpx, h0, h1]
  rw [State.repeatMoved_eq s g c hn hp]
  simp [hm, hpx, Segment.pixelReads, State.writeDst]

/-! ## Between two segments -/

/-- With no input left, the RLE decoder is about to test for the end and to read a header (42_decoder R169). -/
structure State.AtHeader (s : State) : Prop where
  inputs : s.inputs = []
  running : s.running = true
  phase : s.cPhase = .rle
  segment : s.cSeg = none

theorem State.AtHeader.step (hs : s.AtHeader) : step s = .next (s.withBurst none).segmentBegun :=
  step_rleBlt hs.inputs hs.running hs.phase hs.segment

/-- A begun segment is expanded in one step, which moves `rd` on by at least 3 (42_decoder R173). -/
theorem exists_step_segment (hi : s.inputs = []) (hr : s.running = true) (hp : s.cPhase = .rle) (hg : s.cSeg = some g)
    (hm : g.moved = 0) (hpx : g.pixel = none) :
    ∃ t, Machine.step s = .next t ∧ t.AtHeader ∧ s.rd + 3 ≤ t.rd ∧ t.cLen = s.cLen ∧ t.tail = s.tail := by
  have hd := decodedBytes_bounds (segCountM1 g.header)
  rw [step_segment hi hr hp hg, State.literalMoved_whole rfl hm rfl, State.repeatMoved_whole rfl hm hpx rfl rfl]
  split_ifs
  · exact ⟨_, rfl, ⟨hi, hr, hp, rfl⟩, Nat.le_refl _, rfl, rfl⟩
  · exact ⟨_, rfl, ⟨hi, hr, hp, rfl⟩, Nat.add_le_add_left (by omega) _, rfl, rfl⟩

/-- Each three bytes that are left cost at most two steps, by induction on their number. -/
theorem State.AtHeader.exists_run_release (hs : s.AtHeader) {m : Nat} (hm : s.cLen.toNat ≤ s.rd + 3 * m) :
    ∃ n t, n ≤ 2 * m + 1 ∧ Host.Core.run core n s = .next t ∧ t.cPhase = .release ∧ t.tail = s.tail := by
  induction m generalizing s with
  | zero =>
    have hend := hs.step
    rw [State.segmentBegun_end (s := s.withBurst none) hm] at hend
    exact ⟨1, _, Nat.le_refl _, run_succ hend 0, rfl, rfl⟩
  | succ m ih =>
    have hbegun := hs.step
    rcases State.segmentBegun_cases (s.withBurst none) with ⟨_, hu⟩ | ⟨_, _, hu⟩ | ⟨g, _, h0, _, hpx, _, hu⟩ <;>
      rw [hu] at hbegun
    · exact ⟨1, _, by omega, run_succ hbegun 0, rfl, rfl⟩
    · exact ⟨1, _, by omega, run_succ hbegun 0, rfl, rfl⟩
    · obtain ⟨t, ht, hat, hrd, hlen, htail⟩ :=
        exists_step_segment (s := { s.withBurst none with draws := s.draws + 1, cSeg := some g }) hs.inputs hs.running
          hs.phase rfl h0 hpx
      have hrd : s.rd + 3 ≤ t.rd := hrd
      have hlen : t.cLen = s.cLen := hlen
      obtain ⟨n, v, hn, hrun, hph, htl⟩ := ih hat (by rw [hlen]; omega)
      exact ⟨n + 2, v, by omega, (run_succ hbegun _).trans ((run_succ ht n).trans hrun), hph, htl.trans htail⟩

/-- Settles O31, with a third of the length, rounded up, for the number of segments (`State.AtHeader.exists_run_release`). -/
theorem rleDecodingEnds : Obligations.RleDecodingEnds :=
  fun _ hi hr hp hs => State.AtHeader.exists_run_release ⟨hi, hr, hp, hs⟩ (by omega)

/-! ## The payload as the decoder reads it -/

/-- Every payload read from `rd` on gives these bytes, whatever its number. -/
def State.Carries (s : State) (bs : List Byte) : Prop :=
  ∀ (a : Nat) (ha : a < bs.length) (d : Nat), s.payloadByte (s.rd + a) d = bs[a]

theorem State.Carries.payloadBytes (hc : s.Carries (bs ++ cs)) : s.payloadBytes (s.rd + bs.length) cs.length = cs := by
  refine List.ext_getElem (by simp) fun k hk _ => ?_
  rw [State.length_payloadBytes] at hk
  rw [State.getElem_payloadBytes, Nat.add_assoc, hc _ (by simp [hk])]
  simp

/-- Past the first bytes the payload carries the rest. -/
theorem State.Carries.right (hc : s.Carries (bs ++ cs)) (hp : ∀ a d, t.payloadByte a d = s.payloadByte a d)
    (hrd : t.rd = s.rd + bs.length) : t.Carries cs := by
  intro a ha d
  rw [hp, hrd, Nat.add_assoc, hc _ (by simp [ha])]
  simp

theorem State.Carries.left (hc : s.Carries (bs ++ cs)) : s.Carries bs := by
  intro a ha d
  rw [hc a (by simp; omega), List.getElem_append_left]

/-- Without a race a message inside `CAPACITY` is carried as it is stored (42_decoder R170). -/
theorem State.carries_of_no_race (hra : s.races = []) (hrd : s.rd = 0) (hl : bs.length ≤ s.cfg.capacity.bytes)
    (hread : ∀ a, a < bs.length → Memory.read (s.slot s.tail).payload a = bs[a]?) : s.Carries bs := by
  intro a ha d
  rw [hrd, Nat.zero_add, s.payloadByte_of_no_race (by omega) (by simp [hra]), storedByte, hread a ha,
    List.getElem?_eq_getElem ha, Option.getD_some]

/-! ## A segment of the payload -/

theorem getLsbD_encodeSegment : ∀ (rep b6 : Bool) (c : BitVec 6), (encodeSegment rep b6 c).getLsbD 7 = rep := by decide

theorem segCountM1_encodeSegment : ∀ (rep b6 : Bool) (c : BitVec 6), segCountM1 (encodeSegment rep b6 c) = c := by decide

/-- `n` times the pixel is its bytes alternately (42_decoder R172, R180). -/
theorem flatten_replicate_pixel (p0 p1 : Byte) (n : Nat) :
    (List.replicate n [p0, p1]).flatten = repeatBytes p0 p1 0 (2 * n) := by
  induction n with
  | zero => rfl
  | succ n ih =>
    have hlast : repeatBytes p0 p1 (0 + 2 * n) 2 = [p0, p1] := by simp [repeatBytes, List.range_succ, Nat.add_mod]
    rw [List.replicate_succ', List.flatten_append, ih, Nat.mul_succ, ← repeatBytes_add, hlast, List.flatten_singleton]

/-- The segment of header `h` is begun, after one payload read (42_decoder R169). -/
def State.begun (s : State) (h : Byte) : State :=
  { s with burst := none, cSeg := some { header := h, moved := 0, pixel := none }, draws := s.draws + 1 }

/-- The header step of a segment that ends inside the surface begins it, guard or not (42_decoder R169, R175). -/
theorem State.AtHeader.step_header (hs : s.AtHeader) (hc : s.Carries (h :: bs)) (hl : s.rd < s.cLen.toNat)
    (hfit : s.wr + decodedBytes (segCountM1 h) ≤ s.cSize.toNat) : Machine.step s = .next (s.begun h) := by
  have hh : s.payloadByte s.rd s.draws = h := hc 0 (Nat.succ_pos _) s.draws
  rw [hs.step, State.segmentBegun_header (s := s.withBurst none) hl hh fun hg => absurd hg.2 hfit.not_gt]
  rfl

/-- A literal segment that ends inside the surface is copied in two steps (42_decoder R171). -/
theorem State.AtHeader.run_literal (hs : s.AtHeader) (hc : s.Carries (h :: bs)) (hrep : h.getLsbD 7 = false)
    (hn : decodedBytes (segCountM1 h) = bs.length) (hl : s.rd < s.cLen.toNat) (hfit : s.wr + bs.length ≤ s.cSize.toNat) :
    ∃ d, Host.Core.run core 2 s = .next { s.writeDst s.wr bs with
      burst := none, draws := d, rd := s.rd + (h :: bs).length, wr := s.wr + bs.length } := by
  have hheader := hs.step_header hc hl (by rw [hn]; exact hfit)
  have hbegun : (s.begun h).Carries ([h] ++ bs) := hc
  have hbytes : (s.begun h).payloadBytes (s.rd + 1) (decodedBytes (segCountM1 h)) = bs := by
    rw [hn]; exact hbegun.payloadBytes
  refine ⟨s.draws + 1 + bs.length, (run_succ hheader 1).trans (run_succ ?_ 0)⟩
  rw [step_segment (s := s.begun h) hs.inputs hs.running hs.phase rfl, if_neg (Bool.eq_false_iff.mp hrep),
    State.literalMoved_whole (s := (s.begun h).withBurst none) rfl rfl hbytes, hn, List.length_cons,
    Nat.add_comm bs.length 1, ← hs.segment]
  rfl

/-- A repeat segment that ends inside the surface is expanded in two steps (42_decoder R172). -/
theorem State.AtHeader.run_repeat (hs : s.AtHeader) (hc : s.Carries [h, p0, p1]) (hrep : h.getLsbD 7 = true)
    (hn : decodedBytes (segCountM1 h) = n) (hl : s.rd < s.cLen.toNat) (hfit : s.wr + n ≤ s.cSize.toNat) :
    ∃ d, Host.Core.run core 2 s = .next { s.writeDst s.wr (repeatBytes p0 p1 0 n) with
      burst := none, draws := d, rd := s.rd + 3, wr := s.wr + n } := by
  have hheader := hs.step_header hc hl (by rw [hn]; exact hfit)
  refine ⟨s.draws + 1 + 2, (run_succ hheader 1).trans (run_succ ?_ 0)⟩
  rw [step_segment (s := s.begun h) hs.inputs hs.running hs.phase rfl, if_pos hrep,
    State.repeatMoved_whole (s := (s.begun h).withBurst none) rfl rfl rfl (hc 1 (by simp) _) (hc 2 (by simp) _), hn,
    ← hs.segment]
  rfl

/-- A literal segment has the data bytes its header counts (30_encoding R95). -/
theorem RleSegment.wf_literal_iff {b6 : Bool} {c : BitVec 6} {data : List Byte} :
    (RleSegment.literal b6 c data).wf = true ↔ data.length = decodedBytes c := decide_eq_true_iff

theorem RleSegment.expanded_repeated (b6 : Bool) (c : BitVec 6) (p0 p1 : Byte) :
    (RleSegment.repeated b6 c p0 p1).expanded = repeatBytes p0 p1 0 (decodedBytes c) :=
  flatten_replicate_pixel p0 p1 _

/-- A well-formed segment of the payload that ends inside the surface is expanded in two steps. -/
theorem State.AtHeader.run_segment (hs : s.AtHeader) {e : RleSegment} (hw : e.wf = true) (hc : s.Carries e.encoded)
    (hl : s.rd < s.cLen.toNat) (hfit : s.wr + e.expanded.length ≤ s.cSize.toNat) :
    ∃ d, Host.Core.run core 2 s = .next { s.writeDst s.wr e.expanded with
      burst := none, draws := d, rd := s.rd + e.encoded.length, wr := s.wr + e.expanded.length } := by
  cases e with
  | literal b6 c data =>
    exact hs.run_literal hc (getLsbD_encodeSegment ..)
      (by rw [segCountM1_encodeSegment]; exact (RleSegment.wf_literal_iff.mp hw).symm) hl hfit
  | repeated b6 c p0 p1 =>
    rw [RleSegment.expanded_repeated, length_repeatBytes] at *
    exact hs.run_repeat hc (getLsbD_encodeSegment ..) (by rw [segCountM1_encodeSegment]) hl hfit

theorem RleSegment.encoded_length_pos (e : RleSegment) : 0 < e.encoded.length := by
  cases e <;> exact Nat.succ_pos _

/-! ## The whole payload -/

/-- Well-formed segments that are all of the payload left, and end inside the surface, are expanded in two steps each, and
one more step finds the end: by induction on the segments (42_decoder R180). -/
theorem State.AtHeader.run_segments (hs : s.AtHeader) {gs : List RleSegment} (hw : ∀ e ∈ gs, e.wf = true)
    (hc : s.Carries (gs.flatMap RleSegment.encoded))
    (hl : s.cLen.toNat = s.rd + (gs.flatMap RleSegment.encoded).length)
    (hfit : s.wr + (gs.flatMap RleSegment.expanded).length ≤ s.cSize.toNat) :
    ∃ d, Host.Core.run core (2 * gs.length + 1) s =
      .next { s.writeDst s.wr (gs.flatMap RleSegment.expanded) with
        burst := none, draws := d, rd := s.cLen.toNat, wr := s.wr + (gs.flatMap RleSegment.expanded).length
        cPhase := .release } := by
  induction gs generalizing s with
  | nil =>
    have hend := hs.step
    rw [State.segmentBegun_end (s := s.withBurst none) hl.le] at hend
    refine ⟨s.draws, (run_succ hend 0).trans ?_⟩
    rw [run_zero, hl]
    simp [State.writeDst, State.withBurst, Memory.surfaceWrites, dstTransactions, outOfSurface]
  | cons e gs ih =>
    obtain ⟨hwe, hws⟩ := List.forall_mem_cons.mp hw
    simp only [List.flatMap_cons, List.length_append] at hc hl hfit ⊢
    have hpos := e.encoded_length_pos
    obtain ⟨d, hrun⟩ := hs.run_segment hwe hc.left (by omega) (by omega)
    obtain ⟨d', hrest⟩ := ih (s := { s.writeDst s.wr e.expanded with
        burst := none, draws := d, rd := s.rd + e.encoded.length, wr := s.wr + e.expanded.length })
      ⟨hs.inputs, hs.running, hs.phase, hs.segment⟩ hws (hc.right (fun _ _ => rfl) rfl)
      (by rw [Nat.add_assoc]; exact hl) (by rw [Nat.add_assoc]; exact hfit)
    refine ⟨d', ?_⟩
    have hsteps : 2 * (e :: gs).length + 1 = 2 + (2 * gs.length + 1) := by rw [List.length_cons]; omega
    rw [hsteps, run_add 2 _ hrun, hrest, State.writeDst_append, ← Nat.add_assoc]
    rfl

/-- Settles O32: the payload is carried as it is stored, and its segments are expanded one after another
(`State.AtHeader.run_segments`), inside the surface. -/
theorem rlePayloadExpandsToItsSegments : Obligations.RlePayloadExpandsToItsSegments := by
  rintro s gs pay out hw rfl rfl hinv hi hr hp hs hra hrd hwr hlen hread hfit
  obtain ⟨_, _, ⟨hhold, _⟩, _⟩ := hinv
  obtain ⟨hcap, _⟩ := hhold (by simp [State.holds, hp])
  have hc := State.carries_of_no_race hra hrd (hlen ▸ hcap) hread
  obtain ⟨d, hrun⟩ := State.AtHeader.run_segments ⟨hi, hr, hp, hs⟩ hw hc (by rw [hrd, Nat.zero_add, hlen]) (hwr ▸ hfit)
  rw [hwr] at hrun
  refine ⟨_, hrun, rfl, rfl, rfl, fun a ha => ?_, fun a ha => ?_, rfl, ?_, rfl, rfl⟩
  · refine (Memory.read_surfaceWrites_inside s.dst _ hfit _).trans ?_
    rw [if_pos ⟨Nat.le_add_right _ _, Nat.add_lt_add_left ha _⟩, Nat.add_sub_cancel_left]
  · exact (Memory.read_surfaceWrites_inside s.dst _ hfit _).trans (if_neg (by omega))
  · exact (congrArg (s.faults ++ ·) (outOfSurface_eq_nil hfit)).trans (List.append_nil _)

end Sys2Proof.Machine
end

section
/-! The family 60_exceptions: the error events, the steps that go on, and the steps that run no operation. -/

namespace Sys2Proof.Machine

variable {s : State} {i : Instr}

/-! ## Which steps go on -/

/-- A chunk of any form is taken: the reported and the dropped ones too end in a next state (60_exceptions R205). -/
theorem exec_of_chunkForm (hc : isChunkForm i = true) : ∃ t, exec i s = .next t := by
  cases i <;> simp only [isChunkForm, Bool.false_eq_true] at hc
  case cont bytes =>
    rcases execCont_cases bytes s with ⟨_, h⟩ | ⟨_, _, h⟩ | ⟨_, _, h⟩
    · exact ⟨_, h⟩
    · exact ⟨_, h⟩
    · exact ⟨_, h⟩
  all_goals exact ⟨_, rfl⟩

/-- With no input left the enabled operation runs, or nothing happens. -/
theorem exists_step_of_no_inputs (hi : s.inputs = []) : ∃ t, step s = .next t := by
  rw [step_nil hi]
  cases he : s.enabledStep with
  | none => exact ⟨s, rfl⟩
  | some o => exact exec_of_enabled (s := s.withBurst none) he

/-- Settles O45, by the next input: a turn, a reset and no input always go on, a chunk goes on when the port can carry it,
and a surface change when no invocation runs. -/
theorem noErrorIsFatal : Obligations.NoErrorIsFatal := by
  intro s
  rcases hi : s.inputs with _ | ⟨(bytes | ⟨att, size, stride⟩ | _ | b), rest⟩
  · exact .inl (exists_step_of_no_inputs hi)
  · rw [step_chunk hi]
    by_cases hl : maxChunk < bytes.length
    · exact .inr (.inl ⟨if_pos hl, bytes, rfl, hl⟩)
    · rw [if_neg hl]
      exact .inl (exec_of_chunkForm (isChunkForm_decodeChunkForm ..))
  · rw [step_surface hi]
    by_cases hr : s.running = true
    · exact .inr (.inr ⟨if_pos hr, hr, att, size, stride, rfl⟩)
    · exact .inl ⟨_, if_neg hr⟩
  · exact .inl ⟨_, step_reset hi⟩
  · obtain ⟨t, ht, _⟩ := step_turn_frame hi
    exact .inl ⟨t, ht⟩

/-! ## Error events -/

/-- A surface write is no error event. -/
theorem filter_isErrOut_dstTransactions (a : Nat) (bs : List Byte) :
    (dstTransactions a bs).filter Transaction.isErrOut = [] := by
  induction bs generalizing a with
  | nil => rfl
  | cons v bs ih => exact ih (a + 1)

/-- Settles O46: the error events of a step are among the events it raises after its writes (`step_outputs`), at most
one. -/
theorem atMostOneErrorPerStep : Obligations.AtMostOneErrorPerStep := by
  intro s t h
  obtain ⟨a, bytes, errs, ho⟩ := step_outputs h
  refine ⟨dstTransactions a bytes ++ errs, ho.trace, ?_⟩
  rw [List.filter_append, filter_isErrOut_dstTransactions, List.nil_append]
  exact (List.length_filter_le ..).trans ho.atMostOne

/-- Settles O44. -/
theorem errorCodes : Obligations.ErrorCodes :=
  ⟨rfl, rfl, rfl, rfl, rfl⟩

/-! ## Steps that run no operation of the pipeline -/

/-- Outside an invocation and without a wake-up nothing is enabled (41_ring R146). -/
theorem enabledStep_eq_none_of_rest (hr : s.running = false) (hp : s.pending = false) : s.enabledStep = none := by
  simp [State.enabledStep, hr, hp]

/-- Settles O53. -/
theorem stepOfTheOtherInputs : Obligations.StepOfTheOtherInputs := by
  refine fun s rest => ⟨fun att size stride hi hr => ?_, step_reset, fun b hi hr hp => ?_⟩
  · rw [step_surface hi, if_neg (Bool.eq_false_iff.mp hr)]
    rfl
  · rw [step_turn hi, enabledStep_eq_none_of_rest hr hp]

end Sys2Proof.Machine
end

section
/-! The family 70_reset_and_hazards: reset, and the runs with no further input. -/

namespace Sys2Proof.Machine

variable {s t u : State} {g : Segment}

/-! ## Reset -/

/-- Settles O47, with `State.resetRegisters` for the answer. -/
theorem resetRestoresTheTable : Obligations.ResetRestoresTheTable :=
  fun s => ⟨s.resetRegisters, rfl, rfl, rfl, rfl⟩

/-! ## Runs with no further input -/

/-- Settles O54: with no input and nothing enabled the step is idle. -/
theorem quiescentStatesDoNotMove : Obligations.QuiescentStatesDoNotMove := by
  rintro s ⟨hi, hp, hr⟩
  rw [step_nil hi, enabledStep_eq_none_of_rest hr hp]

/-- A step without an input leaves none behind. -/
theorem step_inputs_of_nil (hi : s.inputs = []) (hx : step s = .next t) : t.inputs = [] := by
  rw [step_nil hi] at hx
  cases he : s.enabledStep with
  | none =>
    rw [he] at hx
    cases hx
    exact hi
  | some o =>
    rw [he] at hx
    exact (exec_enabled_frame (s := s.withBurst none) he hx).2.trans hi

/-- A step without an input moves `tail` only in the release (41_ring R149). -/
theorem step_tail_of_nil (hi : s.inputs = []) (hx : step s = .next t) (hp : s.cPhase ≠ .release) : t.tail = s.tail := by
  obtain ⟨_, htail, _⟩ := eachSharedFieldHasItsWriters s t hx
  by_contra hne
  rcases htail hne with hreset | ⟨_, hrelease, _⟩
  · simp [hi] at hreset
  · exact hp hrelease

/-- `t` is reached from `s` with no further input. The invariant stands, and as no chunk lands `head` stays and no
wake-up is added (10_state R22, R27). -/
structure FreeRun (s t : State) : Prop where
  run : ∃ n, Host.Core.run core n s = .next t
  inv : t.Inv
  inputs : t.inputs = []
  head : t.head = s.head
  pending : s.pending = false → t.pending = false

theorem FreeRun.refl (h : s.Inv) (hi : s.inputs = []) : FreeRun s s :=
  ⟨⟨0, run_zero s⟩, h, hi, rfl, id⟩

theorem FreeRun.trans (h : FreeRun s t) (h' : FreeRun t u) : FreeRun s u := by
  obtain ⟨n, hn⟩ := h.run
  obtain ⟨m, hm⟩ := h'.run
  exact ⟨⟨n + m, (run_add n m hn).trans hm⟩, h'.inv, h'.inputs, h'.head.trans h.head, h'.pending ∘ h.pending⟩

theorem FreeRun.of_step (h : s.Inv) (hi : s.inputs = []) (hx : step s = .next t) : FreeRun s t := by
  obtain ⟨hproducer, _, hsignal, _⟩ := eachSharedFieldHasItsWriters s t hx
  refine ⟨⟨1, (run_succ hx 0).trans (run_zero t)⟩, everyStepKeepsTheInvariant s t h hx, step_inputs_of_nil hi hx, ?_,
    fun hp => ?_⟩
  · by_contra hne
    simpa [hi] using hproducer (.inl hne)
  · by_contra hpt
    simpa [hi] using hsignal hp (Bool.eq_true_of_not_eq_false hpt)

/-- Every run from a state without inputs is one. -/
theorem FreeRun.of_run {n : Nat} (h : s.Inv) (hi : s.inputs = []) (hrun : Host.Core.run core n s = .next t) :
    FreeRun s t := by
  induction n generalizing s with
  | zero =>
    cases hrun
    exact .refl h hi
  | succ n ih =>
    obtain ⟨u, hu⟩ := exists_step_of_no_inputs hi
    have hfirst := FreeRun.of_step h hi hu
    exact hfirst.trans (ih hfirst.inv hfirst.inputs ((run_succ hu n).symm.trans hrun))

/-! ## Each phase comes to the end of the invocation -/

theorem State.Inv.running_eq_false_iff (h : s.Inv) : s.running = false ↔ s.cPhase = .idle := by
  obtain ⟨_, ⟨hidle, _⟩, _⟩ := h
  exact hidle

/-- Outside `IDLE` an invocation runs (10_state R30). -/
theorem State.Inv.running_of_phase (h : s.Inv) (hp : s.cPhase ≠ .idle) : s.running = true :=
  Bool.eq_true_of_not_eq_false fun hr => hp (h.running_eq_false_iff.mp hr)

/-- A segment in progress is finished in one step (42_decoder R171, R172). -/
theorem exists_step_rest_of_segment (h : s.Inv) (hi : s.inputs = []) (hp : s.cPhase = .rle) (hg : s.cSeg = some g) :
    ∃ t, step s = .next t ∧ t.AtHeader := by
  have hr := h.running_of_phase (by simp [hp])
  obtain ⟨_, _, _, _, _, hsegment⟩ := h
  obtain ⟨_, _, hmoved, _⟩ := hsegment g hg
  have hall := Nat.add_sub_cancel' hmoved.le
  rw [step_segment hi hr hp hg]
  split_ifs
  · rw [State.repeatMoved_eq _ g _ (State.granted_withBurst_none ..) rfl, if_pos hall, if_pos hall, if_pos hall]
    exact ⟨_, rfl, hi, hr, hp, rfl⟩
  · rw [State.literalMoved_eq _ g _ (State.granted_withBurst_none ..), if_pos hall, if_pos hall, if_pos hall]
    exact ⟨_, rfl, hi, hr, hp, rfl⟩

/-- From between two segments the decoding comes to the release (42_decoder R173, `State.AtHeader.exists_run_release`). -/
theorem State.AtHeader.exists_freeRun_release (hs : s.AtHeader) (h : s.Inv) :
    ∃ t, FreeRun s t ∧ t.cPhase = .release ∧ t.tail = s.tail := by
  obtain ⟨_, t, _, hrun, hp, ht⟩ := hs.exists_run_release (m := s.cLen.toNat) (by omega)
  exact ⟨t, .of_run h hs.inputs hrun, hp, ht⟩

/-- A held Slot comes to its release: at once when that is due, after the copy, or after the decoding, once a segment in
progress is finished. -/
theorem exists_freeRun_release (h : s.Inv) (hi : s.inputs = []) (hh : s.holds = true) :
    ∃ t, FreeRun s t ∧ t.cPhase = .release ∧ t.tail = s.tail := by
  cases hp : s.cPhase with
  | idle | check | loop => simp [State.holds, hp] at hh
  | release => exact ⟨s, .refl h hi, hp, rfl⟩
  | raw =>
    have hx := step_rawBlt hi (h.running_of_phase (by simp [hp])) hp
    refine ⟨_, .of_step h hi hx, ?_, step_tail_of_nil hi hx (by simp [hp])⟩
    exact (State.rawCopied_cPhase (s.withBurst none)).resolve_right fun hb => hb.1 rfl
  | rle =>
    cases hg : s.cSeg with
    | none => exact State.AtHeader.exists_freeRun_release ⟨hi, h.running_of_phase (by simp [hp]), hp, hg⟩ h
    | some g =>
      obtain ⟨u, hx, hu⟩ := exists_step_rest_of_segment h hi hp hg
      have hfirst := FreeRun.of_step h hi hx
      obtain ⟨t, hrest, hpt, htail⟩ := hu.exists_freeRun_release hfirst.inv
      exact ⟨t, hfirst.trans hrest, hpt, htail.trans (step_tail_of_nil hi hx (by simp [hp]))⟩

/-- A held Slot is handed back, and the loop test is next (41_ring R149). -/
theorem exists_freeRun_loop_of_holds (h : s.Inv) (hi : s.inputs = []) (hh : s.holds = true) :
    ∃ t, FreeRun s t ∧ t.cPhase = .loop ∧ t.tail = nextIdx s.tail := by
  obtain ⟨u, hu, hp, htail⟩ := exists_freeRun_release h hi hh
  have hx := step_release hu.inputs (hu.inv.running_of_phase (by simp [hp])) hp
  exact ⟨_, hu.trans (.of_step hu.inv hu.inputs hx), rfl, congrArg nextIdx htail⟩

/-- The loop test on an empty Ring ends the invocation (42_decoder R162). -/
theorem exists_freeRun_idle_of_empty (h : s.Inv) (hi : s.inputs = []) (hp : s.cPhase = .loop) (he : s.tail = s.head) :
    ∃ t, FreeRun s t ∧ t.cPhase = .idle :=
  ⟨_, .of_step h hi (step_take_empty hi (h.running_of_phase (by simp [hp])) hp he), rfl⟩

/-- From the loop test the invocation ends after at most one take: with `N` = 2 its release brings `tail` to `head`. -/
theorem exists_freeRun_idle_of_loop (h : s.Inv) (hi : s.inputs = []) (hp : s.cPhase = .loop) :
    ∃ t, FreeRun s t ∧ t.cPhase = .idle := by
  by_cases he : s.tail = s.head
  · exact exists_freeRun_idle_of_empty h hi hp he
  · have hx := step_take hi (h.running_of_phase (by simp [hp])) hp
    have htake := FreeRun.of_step h hi hx
    have htail := step_tail_of_nil hi hx (by simp [hp])
    rcases State.taken_cPhase (s.withBurst none) with hph | hph | hph | hph
    case inr.inr.inr => exact ⟨_, htake, hph⟩
    all_goals
      obtain ⟨u, hu, hloop, hnext⟩ := exists_freeRun_loop_of_holds htake.inv htake.inputs (by simp [State.holds, hph])
      have hempty : u.tail = u.head := by
        rw [hnext, htail, hu.head, htake.head, eq_nextIdx_of_ne (Ne.symm he)]
      obtain ⟨t, ht, hidle⟩ := exists_freeRun_idle_of_empty hu.inv hu.inputs hloop hempty
      exact ⟨t, (htake.trans hu).trans ht, hidle⟩

/-- From every phase the invocation ends. -/
theorem exists_freeRun_idle (h : s.Inv) (hi : s.inputs = []) : ∃ t, FreeRun s t ∧ t.cPhase = .idle := by
  cases hp : s.cPhase with
  | idle => exact ⟨s, .refl h hi, hp⟩
  | loop => exact exists_freeRun_idle_of_loop h hi hp
  | check =>
    have hcheck := FreeRun.of_step h hi (step_check hi (h.running_of_phase (by simp [hp])) hp)
    rcases State.checked_cPhase (s.withBurst none) with hloop | hidle
    · obtain ⟨t, ht, hidle⟩ := exists_freeRun_idle_of_loop hcheck.inv hcheck.inputs hloop
      exact ⟨t, hcheck.trans ht, hidle⟩
    · exact ⟨_, hcheck, hidle⟩
  | raw | rle | release =>
    obtain ⟨u, hu, hloop, _⟩ := exists_freeRun_loop_of_holds h hi (by simp [State.holds, hp])
    obtain ⟨t, ht, hidle⟩ := exists_freeRun_idle_of_loop hu.inv hu.inputs hloop
    exact ⟨t, hu.trans ht, hidle⟩

/-- An invocation without a wake-up left ends in a quiescent state. -/
theorem exists_freeRun_quiescent_of_not_pending (h : s.Inv) (hi : s.inputs = []) (hp : s.pending = false) :
    ∃ t, FreeRun s t ∧ t.Quiescent := by
  obtain ⟨t, ht, hidle⟩ := exists_freeRun_idle h hi
  exact ⟨t, ht, ht.inputs, ht.pending hp, ht.inv.running_eq_false_iff.mpr hidle⟩

/-- Settles O55: the invocation in progress ends, and a wake-up that is left is spent on one more (41_ring R146). -/
theorem inputFreeRunsEndQuiescent : Obligations.InputFreeRunsEndQuiescent := by
  suffices hq : ∀ s : State, s.Inv → s.inputs = [] → ∃ t, FreeRun s t ∧ t.Quiescent by
    intro s h hi
    obtain ⟨t, ht, hquiet⟩ := hq s h hi
    obtain ⟨n, hn⟩ := ht.run
    exact ⟨n, t, hn, hquiet⟩
  intro s h hi
  obtain ⟨u, hu, hidle⟩ := exists_freeRun_idle h hi
  have hr : u.running = false := hu.inv.running_eq_false_iff.mpr hidle
  cases hp : u.pending with
  | false => exact ⟨u, hu, hu.inputs, hp, hr⟩
  | true =>
    have hinvoke := FreeRun.of_step hu.inv hu.inputs (step_invoke hu.inputs hr hp)
    obtain ⟨t, ht, hquiet⟩ := exists_freeRun_quiescent_of_not_pending hinvoke.inv hinvoke.inputs rfl
    exact ⟨t, (hu.trans hinvoke).trans ht, hquiet⟩

end Sys2Proof.Machine
end
